-- ==== Sys2Proof/Word.lean ====
section
/-! DEFINITION. The word types of the machine: 00_scope.md R7 (all values are unsigned). -/

namespace Sys2Proof

/-- An 8-bit value: a V register, a timer, a byte of memory. -/
abbrev Byte := BitVec 8

/-- A 16-bit value: an opcode, `I`, `PC`, a stack slot. -/
abbrev Word := BitVec 16

/-- A 4-bit slice of an opcode (R8). -/
abbrev Nibble := BitVec 4

/-- The index of a V register (R11): any of the sixteen, none special but V15 (VF) by use. -/
abbrev Reg := Fin 16

/-- A 12-bit address immediate (R61). -/
abbrev Addr12 := BitVec 12

end Sys2Proof
end

