-- ==== Sys2Proof/Config.lean ====
section
/-! DEFINITION. The identity of this hardware (00_scope.md R1), what is fixed for it (R5) and the two parameters it leaves open
(R6): FONT_ROM, by its type, and rand_byte, a free value. -/

namespace Sys2Proof.Config

/-- What names a hardware (R1). R1 gives no ISA version number, no part number and no vendor, so none has a field. -/
structure Identity where
  /-- The block specified. -/
  block : String
  /-- The instruction set. -/
  isa : String
  /-- The repository it comes from. -/
  origin : String
  /-- The edition of the document. -/
  edition : String
deriving DecidableEq, Repr

/-- The identity R1 says a model should record. The edition's number is from the spec's scope note, not from the document's
text (R1, 91_not_in_source.md N1). No rule reads it. -/
def identity : Identity where
  block := "fetch_decode_execute"
  isa := "CHIP-8 (base), as tabulated in §4.1 of the document"
  origin := "GitHub repository Caleb4110/CHIP-8-Emulator"
  edition := "software-reimplementation specification v7"

/-- MEM_SIZE (R5): 4096 bytes, addresses 0x000 to 0xFFF. -/
def memSize : Nat := 4096

/-- FONT_BASE (R5): where the font starts. -/
def fontBase : Word := 0x000#16

/-- FONT_SIZE (R5): 16 glyphs of 5 bytes. -/
def fontSize : Nat := 80

/-- What the open parameter FONT_ROM may be (R6, the spec's decision D22): any 80 bytes. The machine carries its own in
`State.font` (log entry 5). -/
abbrev Font := Vector Byte 80

/-- PROG_BASE (R5): where `load` puts a program. -/
def progBase : Nat := 0x200

/-- MAX_ROM (R5): the largest image `load` accepts. -/
def maxRom : Nat := 3584

/-- PC_RESET (R5). -/
def pcReset : Word := 0x200#16

/-- STACK_DEPTH (R5). -/
def stackDepth : Nat := 16

/-- DISPLAY_W (R5). -/
def displayW : Nat := 64

/-- DISPLAY_H (R5). -/
def displayH : Nat := 32

/-- NKEYS (R5). -/
def nKeys : Nat := 16

/-- The values of the platform field: one (R5, D26). No rule reads it. -/
inductive Platform where
  | chip8
deriving DecidableEq, Repr

/-- PLATFORM (R5). -/
def platform : Platform := .chip8

/-- The event input `rand_byte` of the n-th executed CXNN (R6, R133): A FREE VALUE, a draw under no law. It has no
body, so no proof can see a value of it (log entry 4; safe). -/
opaque randByte : Nat → Byte

end Sys2Proof.Config
end

