-- ==== Sys2Proof/Machine/State.lean ====
section
/-! DEFINITION. The state of the machine (10_state.md R10 to R29), the reasons a step can stop, and the state after reset
(70_reset_and_hazards.md R225). -/

namespace Sys2Proof.Machine

/-- `W`, the wait-for-key latch (R19). -/
inductive WaitLatch where
  | idle
  | armed
  | keySeen
deriving DecidableEq, Repr

/-- The error kinds of 60_exceptions.md R200, in the order of their codes 1 to 8. -/
inductive ErrorKind where
  | unrecognizedOpcode
  | stackOverflow
  | stackUnderflow
  | loadTooLarge
  | invalidKeyIndex
  | invalidRegisterIndex
  | fetchOutOfRange
  | memoryOutOfRange
deriving DecidableEq, Repr

/-- What an event hands to its caller (40_fetch_decode_execute.md R87, 60_exceptions.md R201). -/
inductive Result where
  | ok
  | retry
  | error (kind : ErrorKind)
deriving DecidableEq, Repr

/-- `MEM` (R22): the bytes that differ from what an unlisted address reads as, by strictly rising address
(`memWf`, Machine/Memory.lean). -/
abbrev Memory := List Host.Cell

/-- `DISP` (R23): 32 rows from the top; in a row's 64 bits the most significant bit is column 0, the left. -/
abbrev Display := Vector (BitVec 64) 32


/-- The complete state of the block (R10), and three fields of the model's own: `font`, `draws` and `result`. -/
structure State where
  /-- `V[0..15]` (R11); VF is `V[15]` (R12). -/
  v : Vector Byte 16
  /-- `I` (R13). -/
  i : Word
  /-- `PC` (R14). -/
  pc : Word
  /-- `S[0..15]` (R16). -/
  stack : Vector Word 16
  /-- `SP`, the number of valid stack entries, 0 to 16 (R16). -/
  sp : Fin 17
  /-- `DT` (R17). -/
  dt : Byte
  /-- `ST` (R17). -/
  st : Byte
  /-- `IR` (R18). -/
  ir : Word
  /-- `W` (R19). -/
  wait : WaitLatch
  /-- `K[0..15]` (R20): true is pressed. -/
  keys : Vector Bool 16
  /-- `MEM` (R22). -/
  mem : Memory
  /-- `DISP` (R23). -/
  disp : Display
  /-- `DC` (R24). -/
  dc : Bool
  /-- THE MODEL'S OWN: FONT_ROM, the parameter this machine was built with (R6; R27 calls it no state). Nothing writes it; a
  claim over every state is a claim over every font (log entry 5). -/
  font : Config.Font
  /-- THE MODEL'S OWN: how many bytes CXNN has drawn (log entry 4). -/
  draws : Nat
  /-- THE MODEL'S OWN: the result the last completed step handed out (R87; log entry 2). Nothing reads it. -/
  result : Result
deriving DecidableEq, Repr

/-- Why the machine stops. -/
inductive Fault where
  /-- Raised by `step` alone, when PC > 0xFFE (20_memory.md R42, 60_exceptions.md R202): the fetch would leave memory.
  No state changes, and the same step raises it again for ever. Safe (log entry 3). -/
  | fetchOutOfRange
deriving DecidableEq, Repr

/-- Why an instruction has no meaning. Raised by nothing: every instruction has its meaning. -/
inductive Refusal where
  /-- An instruction whose meaning is not written yet, by its mnemonic in spec/opcode_table.json. Safe. -/
  | notModelled (mnemonic : String)
deriving DecidableEq, Repr

/-- The machine with the font `f` right after reset (R28, R225). Memory lists nothing: an unlisted address reads as the reset
contents. -/
def State.resetWith (f : Config.Font) : State where
  v := Vector.replicate 16 0#8
  i := 0#16
  pc := Config.pcReset
  stack := Vector.replicate 16 0#16
  sp := 0
  dt := 0#8
  st := 0#8
  ir := 0#16
  wait := .idle
  keys := Vector.replicate 16 false
  mem := []
  disp := Vector.replicate 32 0#64
  dc := false
  font := f
  draws := 0
  result := .ok

/-- The machine right after reset, built with the spec's default font (R6, R21; log entry 5). -/
def State.reset : State := State.resetWith fontDefault

end Sys2Proof.Machine
end

