-- ==== Sys2Proof/Machine/Flags.lean ====
section
/-! DEFINITION. chip8_alu (40_fetch_decode_execute.md R92): the 8-bit and 16-bit functions, each with the flag it computes
(42_alu_and_registers.md R120). All unsigned; there is no signed operation. -/

namespace Sys2Proof.Machine

/-- A flag as VF holds it: 1 or 0 (10_state.md R12). -/
def flagByte (b : Bool) : Byte := if b then 1#8 else 0#8

/-- `add8`: the sum modulo 256, and the carry, 1 if a + b > 255 (R120). -/
def add8 (a b : Byte) : Byte × Bool := (a + b, decide (a.toNat + b.toNat > 255))

/-- `sub8`: the difference modulo 256, and `gt`, 1 if a > b STRICTLY (R120). -/
def sub8 (a b : Byte) : Byte × Bool := (a - b, decide (a.toNat > b.toNat))

/-- `shr8`: one position right, bit 7 becomes 0; the flag is bit 0 (R120). -/
def shr8 (a : Byte) : Byte × Bool := (a >>> 1, a.getLsbD 0)

/-- `shl8`: one position left, bit 0 becomes 0; the flag is bit 7 (R120). -/
def shl8 (a : Byte) : Byte × Bool := (a <<< 1, a.getLsbD 7)

/-- `add16`: the sum modulo 65536 (FX1E, FX55, FX65, BNNN). -/
def add16 (a b : Word) : Word := a + b

/-- `mul5`: five times a byte, 0 to 1275 (FX29). -/
def mul5 (a : Byte) : Word := 5#16 * a.setWidth 16

/-- `bcd`: hundreds, tens, units (FX33), most significant first, one byte each (43_index_and_memory.md R143). -/
def bcd (a : Byte) : List Byte :=
  [BitVec.ofNat 8 (a.toNat / 100), BitVec.ofNat 8 (a.toNat / 10 % 10), BitVec.ofNat 8 (a.toNat % 10)]

end Sys2Proof.Machine
end

