-- ==== Sys2Proof/Syntax.lean ====
section
/-! DEFINITION. The instructions: one constructor per row of spec/opcode_table.json (30_encoding.md R63), in the
table's order. Operands are X, Y (register indices), NN (8-bit immediate), NNN (12-bit address), N (a row count). -/

namespace Sys2Proof

/-- The 34 instructions of base CHIP-8 (R63). Each constructor's docstring gives the row's pattern and its rule. -/
inductive Instr where
  /-- 00E0, CLS: R156. -/
  | cls
  /-- 00EE, RET: R101. -/
  | ret
  /-- 1NNN, JP addr: R102. -/
  | jp (nnn : Addr12)
  /-- 2NNN, CALL addr: R103. -/
  | call (nnn : Addr12)
  /-- 3XNN, SE Vx, byte: R104. -/
  | seByte (x : Reg) (nn : Byte)
  /-- 4XNN, SNE Vx, byte: R105. -/
  | sneByte (x : Reg) (nn : Byte)
  /-- 5XY0, SE Vx, Vy: R106. -/
  | seReg (x y : Reg)
  /-- 6XNN, LD Vx, byte: R122. -/
  | ldByte (x : Reg) (nn : Byte)
  /-- 7XNN, ADD Vx, byte: R123. -/
  | addByte (x : Reg) (nn : Byte)
  /-- 8XY0, LD Vx, Vy: R124. -/
  | ldReg (x y : Reg)
  /-- 8XY1, OR Vx, Vy: R125. -/
  | orReg (x y : Reg)
  /-- 8XY2, AND Vx, Vy: R126. -/
  | andReg (x y : Reg)
  /-- 8XY3, XOR Vx, Vy: R127. -/
  | xorReg (x y : Reg)
  /-- 8XY4, ADD Vx, Vy: R128. -/
  | addReg (x y : Reg)
  /-- 8XY5, SUB Vx, Vy: R129. -/
  | subReg (x y : Reg)
  /-- 8XY6, SHR Vx, Vy: R130. -/
  | shrReg (x y : Reg)
  /-- 8XY7, SUBN Vx, Vy: R131. -/
  | subnReg (x y : Reg)
  /-- 8XYE, SHL Vx, Vy: R132. -/
  | shlReg (x y : Reg)
  /-- 9XY0, SNE Vx, Vy: R107. -/
  | sneReg (x y : Reg)
  /-- ANNN, LD I, addr: R140. -/
  | ldI (nnn : Addr12)
  /-- BNNN, JP V0, addr: R108. -/
  | jpV0 (nnn : Addr12)
  /-- CXNN, RND Vx, byte: R133. -/
  | rnd (x : Reg) (nn : Byte)
  /-- DXYN, DRW Vx, Vy, nibble: R157. The row count N is a number; `WellFormed` bounds it by 15. -/
  | drw (x y : Reg) (n : Nat)
  /-- EX9E, SKP Vx: R166. -/
  | skp (x : Reg)
  /-- EXA1, SKNP Vx: R167. -/
  | sknp (x : Reg)
  /-- FX07, LD Vx, DT: R180. -/
  | ldVxDt (x : Reg)
  /-- FX0A, LD Vx, K: R168. -/
  | ldVxK (x : Reg)
  /-- FX15, LD DT, Vx: R181. -/
  | ldDtVx (x : Reg)
  /-- FX18, LD ST, Vx: R182. -/
  | ldStVx (x : Reg)
  /-- FX1E, ADD I, Vx: R141. -/
  | addI (x : Reg)
  /-- FX29, LD F, Vx: R142. -/
  | ldF (x : Reg)
  /-- FX33, LD B, Vx: R143. -/
  | ldB (x : Reg)
  /-- FX55, LD [I], Vx: R144. -/
  | stRegs (x : Reg)
  /-- FX65, LD Vx, [I]: R145. -/
  | ldRegs (x : Reg)
deriving DecidableEq, Repr

end Sys2Proof
end

