-- ==== Sys2Proof/Decode.lean ====
section
/-! DEFINITION. Decoding (30_encoding.md R60 to R67): total on any bytes, rejecting by name; then the encoder, from
the same tables, and the opcode map of R63 as data. -/

namespace Sys2Proof

/-- Why bytes are not an instruction. -/
inductive DecodeError where
  /-- Fewer than the two bytes an instruction has (R60). -/
  | truncated
  /-- The word matches no row of R63 (R65). -/
  | unrecognizedOpcode (w : Word)
deriving DecidableEq, Repr

/-! ### Fields (R61) -/

/-- T, bits 15:12: the instruction class. -/
def fieldT (w : Word) : Nibble := w.extractLsb' 12 4

/-- X, bits 11:8: a register index. -/
def fieldX (w : Word) : Reg := (w.extractLsb' 8 4).toFin

/-- Y, bits 7:4: a register index. -/
def fieldY (w : Word) : Reg := (w.extractLsb' 4 4).toFin

/-- N, bits 3:0. -/
def fieldN (w : Word) : Nibble := w.extractLsb' 0 4

/-- NN, bits 7:0. -/
def fieldNN (w : Word) : Byte := w.extractLsb' 0 8

/-- NNN, bits 11:0. -/
def fieldNNN (w : Word) : Addr12 := w.extractLsb' 0 12

/-! ### The decoder: dispatch on T, classes 0, 5, 8, 9, E, F further on N, NN or the whole word (R63, R64) -/

/-- Class 0 matches on the whole word (R64 (a)). -/
def decodeClass0 (w : Word) : Option Instr :=
  if w = 0x00E0#16 then some .cls
  else if w = 0x00EE#16 then some .ret
  else none

/-- Class 8 matches on T and N (R64). -/
def decodeClass8 (w : Word) : Option Instr :=
  match (fieldN w).toNat with
  | 0x0 => some (.ldReg (fieldX w) (fieldY w))
  | 0x1 => some (.orReg (fieldX w) (fieldY w))
  | 0x2 => some (.andReg (fieldX w) (fieldY w))
  | 0x3 => some (.xorReg (fieldX w) (fieldY w))
  | 0x4 => some (.addReg (fieldX w) (fieldY w))
  | 0x5 => some (.subReg (fieldX w) (fieldY w))
  | 0x6 => some (.shrReg (fieldX w) (fieldY w))
  | 0x7 => some (.subnReg (fieldX w) (fieldY w))
  | 0xE => some (.shlReg (fieldX w) (fieldY w))
  | _ => none

/-- Class E matches on T and NN (R64). -/
def decodeClassE (w : Word) : Option Instr :=
  if fieldNN w = 0x9E#8 then some (.skp (fieldX w))
  else if fieldNN w = 0xA1#8 then some (.sknp (fieldX w))
  else none

/-- Class F matches on T and NN (R64). -/
def decodeClassF (w : Word) : Option Instr :=
  if fieldNN w = 0x07#8 then some (.ldVxDt (fieldX w))
  else if fieldNN w = 0x0A#8 then some (.ldVxK (fieldX w))
  else if fieldNN w = 0x15#8 then some (.ldDtVx (fieldX w))
  else if fieldNN w = 0x18#8 then some (.ldStVx (fieldX w))
  else if fieldNN w = 0x1E#8 then some (.addI (fieldX w))
  else if fieldNN w = 0x29#8 then some (.ldF (fieldX w))
  else if fieldNN w = 0x33#8 then some (.ldB (fieldX w))
  else if fieldNN w = 0x55#8 then some (.stRegs (fieldX w))
  else if fieldNN w = 0x65#8 then some (.ldRegs (fieldX w))
  else none

/-- The row of R63 a word selects, with its operands. -/
def selectRow (w : Word) : Option Instr :=
  match (fieldT w).toNat with
  | 0x0 => decodeClass0 w
  | 0x1 => some (.jp (fieldNNN w))
  | 0x2 => some (.call (fieldNNN w))
  | 0x3 => some (.seByte (fieldX w) (fieldNN w))
  | 0x4 => some (.sneByte (fieldX w) (fieldNN w))
  | 0x5 => if fieldN w = 0x0#4 then some (.seReg (fieldX w) (fieldY w)) else none
  | 0x6 => some (.ldByte (fieldX w) (fieldNN w))
  | 0x7 => some (.addByte (fieldX w) (fieldNN w))
  | 0x8 => decodeClass8 w
  | 0x9 => if fieldN w = 0x0#4 then some (.sneReg (fieldX w) (fieldY w)) else none
  | 0xA => some (.ldI (fieldNNN w))
  | 0xB => some (.jpV0 (fieldNNN w))
  | 0xC => some (.rnd (fieldX w) (fieldNN w))
  | 0xD => some (.drw (fieldX w) (fieldY w) (fieldN w).toNat)
  | 0xE => decodeClassE w
  | 0xF => decodeClassF w
  | _ => none

/-- Decoding one opcode (R67): an instruction with its operands, or unrecognized. -/
def decodeWord (w : Word) : Except DecodeError Instr :=
  match selectRow w with
  | some i => .ok i
  | none => .error (.unrecognizedOpcode w)

/-- The opcode two consecutive bytes make, big-endian (20_memory.md R41): the byte at the lower address is bits 15:8. -/
def opcodeOf (hi lo : Byte) : Word := hi ++ lo

/-- Decoding a list of bytes: the first instruction and the bytes after it. -/
def decodeBytes : List Byte → Except DecodeError (Instr × List Byte)
  | hi :: lo :: rest =>
    match decodeWord (opcodeOf hi lo) with
    | .ok i => .ok (i, rest)
    | .error e => .error e
  | _ => .error .truncated

/-! ### The encoder: the formats of R62 -/

/-- Format A: a class and a 12-bit address. -/
def formatA (t : Nibble) (nnn : Addr12) : Word := t ++ nnn

/-- Formats XB and XF: a class, a register, a byte (an immediate, or a fixed sub-opcode). -/
def formatXB (t : Nibble) (x : Reg) (nn : Byte) : Word := t ++ BitVec.ofFin (w := 4) x ++ nn

/-- Formats XY and XYN: a class, two registers, a nibble (a fixed sub-opcode, or a row count). -/
def formatXY (t : Nibble) (x y : Reg) (n : Nibble) : Word :=
  t ++ BitVec.ofFin (w := 4) x ++ BitVec.ofFin (w := 4) y ++ n

/-- The opcode of an instruction (R63). A row count beyond 15 does not fit its field: `Instr.wellFormed` shuts it out. -/
def encode : Instr → Word
  | .cls => 0x00E0#16
  | .ret => 0x00EE#16
  | .jp nnn => formatA 0x1#4 nnn
  | .call nnn => formatA 0x2#4 nnn
  | .seByte x nn => formatXB 0x3#4 x nn
  | .sneByte x nn => formatXB 0x4#4 x nn
  | .seReg x y => formatXY 0x5#4 x y 0x0#4
  | .ldByte x nn => formatXB 0x6#4 x nn
  | .addByte x nn => formatXB 0x7#4 x nn
  | .ldReg x y => formatXY 0x8#4 x y 0x0#4
  | .orReg x y => formatXY 0x8#4 x y 0x1#4
  | .andReg x y => formatXY 0x8#4 x y 0x2#4
  | .xorReg x y => formatXY 0x8#4 x y 0x3#4
  | .addReg x y => formatXY 0x8#4 x y 0x4#4
  | .subReg x y => formatXY 0x8#4 x y 0x5#4
  | .shrReg x y => formatXY 0x8#4 x y 0x6#4
  | .subnReg x y => formatXY 0x8#4 x y 0x7#4
  | .shlReg x y => formatXY 0x8#4 x y 0xE#4
  | .sneReg x y => formatXY 0x9#4 x y 0x0#4
  | .ldI nnn => formatA 0xA#4 nnn
  | .jpV0 nnn => formatA 0xB#4 nnn
  | .rnd x nn => formatXB 0xC#4 x nn
  | .drw x y n => formatXY 0xD#4 x y (BitVec.ofNat 4 n)
  | .skp x => formatXB 0xE#4 x 0x9E#8
  | .sknp x => formatXB 0xE#4 x 0xA1#8
  | .ldVxDt x => formatXB 0xF#4 x 0x07#8
  | .ldVxK x => formatXB 0xF#4 x 0x0A#8
  | .ldDtVx x => formatXB 0xF#4 x 0x15#8
  | .ldStVx x => formatXB 0xF#4 x 0x18#8
  | .addI x => formatXB 0xF#4 x 0x1E#8
  | .ldF x => formatXB 0xF#4 x 0x29#8
  | .ldB x => formatXB 0xF#4 x 0x33#8
  | .stRegs x => formatXB 0xF#4 x 0x55#8
  | .ldRegs x => formatXB 0xF#4 x 0x65#8

/-- The high byte of an opcode, stored at the lower address (R41). -/
def opcodeHi (w : Word) : Byte := w.extractLsb' 8 8

/-- The low byte of an opcode, stored at the higher address (R41). -/
def opcodeLo (w : Word) : Byte := w.extractLsb' 0 8

/-- An instruction as the two bytes memory holds, lower address first (R41). -/
def encodeBytes (i : Instr) : List Byte := [opcodeHi (encode i), opcodeLo (encode i)]

/-! ### The opcode map of R63 as data -/

/-- A row of R63: an opcode `w` selects it when `w &&& mask = value`; `build` reads the operands from `w`. -/
structure OpcodeRow where
  mask : Word
  value : Word
  build : Word → Instr

/-- The word selects the row (R63). -/
def OpcodeRow.selects (r : OpcodeRow) (w : Word) : Bool := w &&& r.mask == r.value

/-- Rows 1 to 9 of R63. -/
def opcodeRows1 : List OpcodeRow :=
  [ ⟨0xFFFF#16, 0x00E0#16, fun _ => .cls⟩,
    ⟨0xFFFF#16, 0x00EE#16, fun _ => .ret⟩,
    ⟨0xF000#16, 0x1000#16, fun w => .jp (fieldNNN w)⟩,
    ⟨0xF000#16, 0x2000#16, fun w => .call (fieldNNN w)⟩,
    ⟨0xF000#16, 0x3000#16, fun w => .seByte (fieldX w) (fieldNN w)⟩,
    ⟨0xF000#16, 0x4000#16, fun w => .sneByte (fieldX w) (fieldNN w)⟩,
    ⟨0xF00F#16, 0x5000#16, fun w => .seReg (fieldX w) (fieldY w)⟩,
    ⟨0xF000#16, 0x6000#16, fun w => .ldByte (fieldX w) (fieldNN w)⟩,
    ⟨0xF000#16, 0x7000#16, fun w => .addByte (fieldX w) (fieldNN w)⟩ ]

/-- Rows 10 to 19 of R63. -/
def opcodeRows2 : List OpcodeRow :=
  [ ⟨0xF00F#16, 0x8000#16, fun w => .ldReg (fieldX w) (fieldY w)⟩,
    ⟨0xF00F#16, 0x8001#16, fun w => .orReg (fieldX w) (fieldY w)⟩,
    ⟨0xF00F#16, 0x8002#16, fun w => .andReg (fieldX w) (fieldY w)⟩,
    ⟨0xF00F#16, 0x8003#16, fun w => .xorReg (fieldX w) (fieldY w)⟩,
    ⟨0xF00F#16, 0x8004#16, fun w => .addReg (fieldX w) (fieldY w)⟩,
    ⟨0xF00F#16, 0x8005#16, fun w => .subReg (fieldX w) (fieldY w)⟩,
    ⟨0xF00F#16, 0x8006#16, fun w => .shrReg (fieldX w) (fieldY w)⟩,
    ⟨0xF00F#16, 0x8007#16, fun w => .subnReg (fieldX w) (fieldY w)⟩,
    ⟨0xF00F#16, 0x800E#16, fun w => .shlReg (fieldX w) (fieldY w)⟩,
    ⟨0xF00F#16, 0x9000#16, fun w => .sneReg (fieldX w) (fieldY w)⟩ ]

/-- Rows 20 to 34 of R63. -/
def opcodeRows3 : List OpcodeRow :=
  [ ⟨0xF000#16, 0xA000#16, fun w => .ldI (fieldNNN w)⟩,
    ⟨0xF000#16, 0xB000#16, fun w => .jpV0 (fieldNNN w)⟩,
    ⟨0xF000#16, 0xC000#16, fun w => .rnd (fieldX w) (fieldNN w)⟩,
    ⟨0xF000#16, 0xD000#16, fun w => .drw (fieldX w) (fieldY w) (fieldN w).toNat⟩,
    ⟨0xF0FF#16, 0xE09E#16, fun w => .skp (fieldX w)⟩,
    ⟨0xF0FF#16, 0xE0A1#16, fun w => .sknp (fieldX w)⟩,
    ⟨0xF0FF#16, 0xF007#16, fun w => .ldVxDt (fieldX w)⟩,
    ⟨0xF0FF#16, 0xF00A#16, fun w => .ldVxK (fieldX w)⟩,
    ⟨0xF0FF#16, 0xF015#16, fun w => .ldDtVx (fieldX w)⟩,
    ⟨0xF0FF#16, 0xF018#16, fun w => .ldStVx (fieldX w)⟩,
    ⟨0xF0FF#16, 0xF01E#16, fun w => .addI (fieldX w)⟩,
    ⟨0xF0FF#16, 0xF029#16, fun w => .ldF (fieldX w)⟩,
    ⟨0xF0FF#16, 0xF033#16, fun w => .ldB (fieldX w)⟩,
    ⟨0xF0FF#16, 0xF055#16, fun w => .stRegs (fieldX w)⟩,
    ⟨0xF0FF#16, 0xF065#16, fun w => .ldRegs (fieldX w)⟩ ]

/-- The complete opcode map (R63), 34 rows in the order of the rule. -/
def opcodeTable : List OpcodeRow := opcodeRows1 ++ opcodeRows2 ++ opcodeRows3

/-! ### The host's reading of the table -/

/-- The two bytes of an opcode given by its bits (bit 0 is the opcode's bit 0), lower address first; bits at and above
`nbits` are 0. -/
def tableBytes (nbits w : Nat) : List Byte :=
  let op : Word := BitVec.ofNat 16 (w % 2 ^ nbits)
  [opcodeHi op, opcodeLo op]

/-- The instruction the decoder reads from an instruction whose bits are `w`, laid out as the hardware stores it. -/
def decodeTableWord (nbits w : Nat) : Option Instr :=
  match decodeBytes (tableBytes nbits w) with
  | .ok (i, _) => some i
  | .error _ => none

end Sys2Proof
end

