-- ==== Sys2Proof/Machine/Memory.lean ====
section
/-! DEFINITION. Memory: 4096 bytes, one space for font, program and data (20_memory.md R40, R48), as a canonical list of
the bytes that differ from the reset contents. -/

namespace Sys2Proof.Machine

/-- What an unlisted address reads as in a machine built with the font `f`: the reset contents (R28), FONT_ROM in 0x000 to
0x04F and 0x00 above (the zeros are the spec's decision D14; log entry 7). -/
def resetByte (f : Config.Font) (a : Nat) : Byte := f[a]?.getD 0x00#8

/-! ### One byte -/

/-- `MemRead(a, 1)` (00_scope.md R7), for an address inside memory: callers check the range first (R45). -/
def memRead (f : Config.Font) : Memory → Nat → Byte
  | [], a => resetByte f a
  | (b, v) :: m, a => if a = b then v else memRead f m a

/-- The list without an address: it then reads as the reset contents. -/
def memErase (m : Memory) (a : Nat) : Memory := m.filter (fun c => c.1 != a)

/-- A new cell at its place by address, on a list that does not hold the address. -/
def memInsert : Memory → Nat → Byte → Memory
  | [], a, v => [(a, v)]
  | (b, w) :: m, a, v => if a < b then (a, v) :: (b, w) :: m else (b, w) :: memInsert m a v

/-- `MemWrite(a, 1, v)` (R7), for an address inside memory: callers check the range first (R45). Writing what the
unlisted address reads as takes it off the list. -/
def memWrite (f : Config.Font) (m : Memory) (a : Nat) (v : Byte) : Memory :=
  if v = resetByte f a then memErase m a else memInsert (memErase m a) a v

/-- The canonical form: addresses inside memory and strictly rising, no entry equal to the reset contents. -/
abbrev memWf (f : Config.Font) (m : Memory) : Prop :=
  m.Pairwise (fun p q => p.1 < q.1) ∧ ∀ p ∈ m, p.1 < Config.memSize ∧ p.2 ≠ resetByte f p.1

/-! ### Runs of bytes, in ascending address order (R46) -/

/-- Writing bytes at `a`, `a + 1`, … (FX33, FX55, `load`). -/
def memWriteBytes (f : Config.Font) (m : Memory) (a : Nat) : List Byte → Memory
  | [] => m
  | v :: vs => memWriteBytes f (memWrite f m a v) (a + 1) vs

/-- Reading `n` bytes from `a` (DXYN's sprite rows, the debug view). -/
def memReadBytes (f : Config.Font) (m : Memory) (a : Nat) : Nat → List Byte
  | 0 => []
  | n + 1 => memRead f m a :: memReadBytes f m (a + 1) n

end Sys2Proof.Machine
end

