-- ==== Sys2Proof/Machine/Ops.lean ====
section
/-! DEFINITION. The named operations of the sub-blocks (40_fetch_decode_execute.md R80, R90 to R96), the ends of an
instruction (completing, retrying, raising an error), and the fetch. -/

namespace Sys2Proof.Machine

namespace State

/-! ### Writing one field -/

/-- Write the whole register file. -/
def setV (s : State) (v : Vector Byte 16) : State := { s with v := v }

/-- Write `I`. -/
def setI (s : State) (i : Word) : State := { s with i := i }

/-- Write `PC`: `pc_load` (R90). -/
def setPc (s : State) (pc : Word) : State := { s with pc := pc }

/-- Write the stack's slots. -/
def setStack (s : State) (stack : Vector Word 16) : State := { s with stack := stack }

/-- Write `SP`. -/
def setSp (s : State) (sp : Fin 17) : State := { s with sp := sp }

/-- Write `DT`. -/
def setDt (s : State) (dt : Byte) : State := { s with dt := dt }

/-- Write `ST`. -/
def setSt (s : State) (st : Byte) : State := { s with st := st }

/-- Write `IR`. -/
def setIr (s : State) (ir : Word) : State := { s with ir := ir }

/-- Write `W`. -/
def setWait (s : State) (w : WaitLatch) : State := { s with wait := w }

/-- Write the key states. -/
def setKeys (s : State) (keys : Vector Bool 16) : State := { s with keys := keys }

/-- Write memory. -/
def setMem (s : State) (mem : Memory) : State := { s with mem := mem }

/-- Write the display's cells. -/
def setDisp (s : State) (disp : Display) : State := { s with disp := disp }

/-- Write `DC`. -/
def setDc (s : State) (dc : Bool) : State := { s with dc := dc }

/-- Write the model's draw counter. -/
def setDraws (s : State) (n : Nat) : State := { s with draws := n }

/-- Write the model's result field. -/
def setResult (s : State) (r : Result) : State := { s with result := r }

/-! ### register_file_16x8 (R91) -/

/-- Read `V[x]`. -/
def reg (s : State) (x : Reg) : Byte := s.v[x]

/-- Write `V[x]`. -/
def setReg (s : State) (x : Reg) (b : Byte) : State := s.setV (s.v.set x b)

/-! ### program_counter (R90) -/

/-- `pc_advance`: PC + 2 modulo 65536, by the fetch and by a taken skip. -/
def pcAdvance (s : State) : State := s.setPc (s.pc + 2#16)

/-- `pc_rewind`: PC - 2 modulo 65536, by FX0A. -/
def pcRewind (s : State) : State := s.setPc (s.pc - 2#16)

/-- A skip (41_control_flow.md R100 (a)): advance once more if the condition holds. -/
def skipIf (s : State) (c : Bool) : State := if c then s.pcAdvance else s

/-! ### stack_unit_16x16 (R93, 10_state.md R16) -/

/-- Push a return address; nothing when full. -/
def push (s : State) (a : Word) : Option State :=
  if h : s.sp.val < 16 then
    some ((s.setStack (s.stack.set s.sp.val a)).setSp ⟨s.sp.val + 1, by omega⟩)
  else none

/-- Pop: the address on top and the state with one entry fewer (the slot keeps its value); nothing when empty. -/
def pop (s : State) : Option (Word × State) :=
  if h : 0 < s.sp.val then
    some (s.stack[s.sp.val - 1], s.setSp ⟨s.sp.val - 1, by omega⟩)
  else none

/-! ### keypad_wait_fsm (R95) -/

/-- `key_test`: the state of key k. -/
def key (s : State) (k : Fin 16) : Bool := s.keys[k]

/-- `any_key`: some key is pressed. -/
def anyKey (s : State) : Bool := s.keys.toList.any id

/-- `first_key`: the smallest index of a pressed key. -/
def firstKey (s : State) : Option Nat := s.keys.toList.findIdx? id

/-! ### The memory port (R80, 20_memory.md R46) -/

/-- The byte of memory at an address. -/
def byte (s : State) (a : Nat) : Byte := memRead s.font s.mem a

/-- `n` bytes of memory from an address on. -/
def readBytes (s : State) (a n : Nat) : List Byte := memReadBytes s.font s.mem a n

/-- Store bytes from an address on. -/
def writeBytes (s : State) (a : Nat) (bs : List Byte) : State := s.setMem (memWriteBytes s.font s.mem a bs)

end State

/-! ### sprite_xor_blitter (R94) -/

/-- Row y of the display (10_state.md R23); a row that does not exist reads as clear. -/
def displayRow (d : Display) (y : Nat) : BitVec 64 := d[y]?.getD 0#64

/-- `DISP[y][x]`: the cell at column x and row y. -/
def displayCell (d : Display) (x y : Nat) : Bool := (displayRow d y).getMsbD x

/-- `clear`: all cells 0 (44_display.md R156). -/
def displayClear : Display := Vector.replicate 32 0#64

/-- The cells of a display row that a sprite byte covers with 1 bits when drawn from column x0: bit 7 on column x0,
rightwards, columns from 64 on cut off (R155, R157). -/
def spriteMask (b : Byte) (x0 : Nat) : BitVec 64 := (b.setWidth 64 <<< 56) >>> x0

/-- `draw`: XOR the sprite's rows into the display from column x0 and row y0 downwards, and whether a sprite bit of 1
met a cell that was 1 (R157). Rows are given already cut at the bottom edge. -/
def blit (d : Display) (x0 y0 : Nat) : List Byte → Display × Bool
  | [] => (d, false)
  | b :: bs =>
    let mask := spriteMask b x0
    let hit := (displayRow d y0 &&& mask) != 0#64
    let rest := blit (d.setIfInBounds y0 (displayRow d y0 ^^^ mask)) x0 (y0 + 1) bs
    (rest.1, hit || rest.2)

/-! ### How an instruction ends (R87) -/

/-- The instruction completed: result Ok. -/
def complete (s : State) : Host.Outcome State Fault Refusal := .next (s.setResult .ok)

/-- The instruction was FX0A and waits: PC back on it, result Retry (45_keypad.md R168). -/
def retry (s : State) : Host.Outcome State Fault Refusal := .next (s.pcRewind.setResult .retry)

/-- RAISING AN ERROR in the decode or execute phase (60_exceptions.md R204, R206): that is all that happens. Nothing is
saved, no handler exists, PC keeps its post-fetch value, and a further step runs from this state; the result tells the
caller (log entry 1). There is no return from an error (R206). -/
def raise (kind : ErrorKind) (s : State) : Host.Outcome State Fault Refusal := .next (s.setResult (.error kind))

/-! ### The fetch (R84, 20_memory.md R41, R42) -/

/-- Both bytes of the instruction at PC are inside memory (R42). -/
def canFetch (s : State) : Bool := decide (s.pc.toNat ≤ 0xFFE)

/-- The opcode at an address: two bytes, big-endian (R41). -/
def opcodeAt (s : State) (a : Nat) : Word := opcodeOf (s.byte a) (s.byte (a + 1))

/-- The fetch: the opcode into IR, then PC advanced by 2 (R84); nothing when PC > 0xFFE. -/
def fetch (s : State) : Option State :=
  if canFetch s then some (s.setIr (opcodeAt s s.pc.toNat)).pcAdvance else none

end Sys2Proof.Machine
end

