-- ==== Sys2Proof/Machine/Operands.lean ====
section
/-! DEFINITION. Operand forms (30_encoding.md R66, 43_index_and_memory.md R146): registers by index, VF, immediates, and
the one addressing mode, register indirect through `I`. -/

namespace Sys2Proof.Machine

/-- VF is V15 (10_state.md R11). -/
def vf : Reg := 15

/-- NNN zero-extended to 16 bits (R66). -/
def addrWord (nnn : Addr12) : Word := nnn.setWidth 16

/-- A register's byte zero-extended to 16 bits (BNNN, FX1E). -/
def regWord (s : State) (x : Reg) : Word := (s.reg x).setWidth 16

/-- The address of byte k of a data access: the integer I + k, never reduced (20_memory.md R45, R146). -/
def effAddr (s : State) (k : Nat) : Nat := s.i.toNat + k

/-- An access of n bytes from `I` on stays inside memory; an access of no byte always does (R45). -/
def accessFits (s : State) (n : Nat) : Bool := decide (n = 0 ∨ effAddr s n ≤ Config.memSize)

/-- The n bytes V0, V1, … that FX55 stores (43_index_and_memory.md R144). -/
def regBytes (s : State) (n : Nat) : List Byte := s.v.toList.take n

/-- V0 to V(n-1) loaded with `f 0`, `f 1`, … in ascending order (FX65, R145). -/
def loadedRegs (v : Vector Byte 16) (f : Nat → Byte) : Nat → Vector Byte 16
  | 0 => v
  | n + 1 => (loadedRegs v f n).setIfInBounds n (f n)

/-- FX55 and FX65 post-modify `I` by n, modulo 65536 (R146). -/
def bumpI (s : State) (n : Nat) : State := s.setI (add16 s.i (BitVec.ofNat 16 n))

/-- 8XY4, 8XY5, 8XY7 (42_alu_and_registers.md R121): VF takes the flag of `f`, THEN VX takes its result, the registers
read again in between. -/
def flagThenResult (f : State → Byte × Bool) (x : Reg) (s : State) : State :=
  let s1 := s.setReg vf (flagByte (f s).2)
  s1.setReg x (f s1).1

/-- 8XY6, 8XYE (R121, R130, R132): VX takes VY, THEN VF the flag of `f`, THEN VX its result, each reading the registers
the one before left. -/
def copyThenShift (f : Byte → Byte × Bool) (x y : Reg) (s : State) : State :=
  let s1 := s.setReg x (s.reg y)
  let s2 := s1.setReg vf (flagByte (f (s1.reg x)).2)
  s2.setReg x (f (s2.reg x)).1

end Sys2Proof.Machine
end

