-- ==== Sys2Proof/Machine/Alu.lean ====
section
/-! DEFINITION. Register and arithmetic instructions (42_alu_and_registers.md R120 to R133). -/

namespace Sys2Proof.Machine

/-- 6XNN (R122). -/
def execLdByte (x : Reg) (nn : Byte) (s : State) : Host.Outcome State Fault Refusal :=
  complete (s.setReg x nn)

/-- 7XNN (R123): no flag. -/
def execAddByte (x : Reg) (nn : Byte) (s : State) : Host.Outcome State Fault Refusal :=
  complete (s.setReg x (add8 (s.reg x) nn).1)

/-- 8XY0 (R124). -/
def execLdReg (x y : Reg) (s : State) : Host.Outcome State Fault Refusal :=
  complete (s.setReg x (s.reg y))

/-- 8XY1 (R125): VF is not written. -/
def execOrReg (x y : Reg) (s : State) : Host.Outcome State Fault Refusal :=
  complete (s.setReg x (s.reg x ||| s.reg y))

/-- 8XY2 (R126): VF is not written. -/
def execAndReg (x y : Reg) (s : State) : Host.Outcome State Fault Refusal :=
  complete (s.setReg x (s.reg x &&& s.reg y))

/-- 8XY3 (R127): VF is not written. -/
def execXorReg (x y : Reg) (s : State) : Host.Outcome State Fault Refusal :=
  complete (s.setReg x (s.reg x ^^^ s.reg y))

/-- 8XY4 (R128): VF the carry, then VX the sum of the registers read again. -/
def execAddReg (x y : Reg) (s : State) : Host.Outcome State Fault Refusal :=
  complete (flagThenResult (fun r => add8 (r.reg x) (r.reg y)) x s)

/-- 8XY5 (R129): VF is VX > VY, strictly, then VX the difference of the registers read again. -/
def execSubReg (x y : Reg) (s : State) : Host.Outcome State Fault Refusal :=
  complete (flagThenResult (fun r => sub8 (r.reg x) (r.reg y)) x s)

/-- 8XY6 (R130): the copy of VY is shifted. -/
def execShrReg (x y : Reg) (s : State) : Host.Outcome State Fault Refusal :=
  complete (copyThenShift shr8 x y s)

/-- 8XY7 (R131): VF is VY > VX, strictly, then VX the difference VY - VX of the registers read again. -/
def execSubnReg (x y : Reg) (s : State) : Host.Outcome State Fault Refusal :=
  complete (flagThenResult (fun r => sub8 (r.reg y) (r.reg x)) x s)

/-- 8XYE (R132): the copy of VY is shifted. -/
def execShlReg (x y : Reg) (s : State) : Host.Outcome State Fault Refusal :=
  complete (copyThenShift shl8 x y s)

/-- CXNN with a given random byte (R133). -/
def rndWith (rand : Byte) (x : Reg) (nn : Byte) (s : State) : State := s.setReg x (rand &&& nn)

/-- CXNN (R133): the byte is a free value, one draw per executed CXNN (log entry 4). -/
def execRnd (x : Reg) (nn : Byte) (s : State) : Host.Outcome State Fault Refusal :=
  complete (rndWith (Config.randByte s.draws) x nn (s.setDraws (s.draws + 1)))

end Sys2Proof.Machine
end

