-- ==== Sys2Proof/Machine/ControlFlow.lean ====
section
/-! DEFINITION. Control-flow instructions (41_control_flow.md R100 to R109). PC is the post-fetch PC throughout (R14). -/

namespace Sys2Proof.Machine

/-- 00EE (R101): pop into PC; StackUnderflow when the stack is empty. -/
def execRet (s : State) : Host.Outcome State Fault Refusal :=
  match s.pop with
  | some (a, s1) => complete (s1.setPc a)
  | none => raise .stackUnderflow s

/-- 1NNN (R102). -/
def execJp (nnn : Addr12) (s : State) : Host.Outcome State Fault Refusal :=
  complete (s.setPc (addrWord nnn))

/-- 2NNN (R103): push the post-fetch PC, then jump; StackOverflow when the stack is full. -/
def execCall (nnn : Addr12) (s : State) : Host.Outcome State Fault Refusal :=
  match s.push s.pc with
  | some s1 => complete (s1.setPc (addrWord nnn))
  | none => raise .stackOverflow s

/-- 3XNN (R104). -/
def execSeByte (x : Reg) (nn : Byte) (s : State) : Host.Outcome State Fault Refusal :=
  complete (s.skipIf (s.reg x == nn))

/-- 4XNN (R105). -/
def execSneByte (x : Reg) (nn : Byte) (s : State) : Host.Outcome State Fault Refusal :=
  complete (s.skipIf (s.reg x != nn))

/-- 5XY0 (R106). -/
def execSeReg (x y : Reg) (s : State) : Host.Outcome State Fault Refusal :=
  complete (s.skipIf (s.reg x == s.reg y))

/-- 9XY0 (R107). -/
def execSneReg (x y : Reg) (s : State) : Host.Outcome State Fault Refusal :=
  complete (s.skipIf (s.reg x != s.reg y))

/-- BNNN (R108): always V0, and the sum is not cut to 12 bits. -/
def execJpV0 (nnn : Addr12) (s : State) : Host.Outcome State Fault Refusal :=
  complete (s.setPc (add16 (addrWord nnn) (regWord s 0)))

end Sys2Proof.Machine
end

