-- ==== Sys2Proof/Machine/IndexMemory.lean ====
section
/-! DEFINITION. Index-register and memory instructions (43_index_and_memory.md R140 to R146). The range of a data access is
checked before the instruction's first write (20_memory.md R45). -/

namespace Sys2Proof.Machine

/-- ANNN (R140). -/
def execLdI (nnn : Addr12) (s : State) : Host.Outcome State Fault Refusal :=
  complete (s.setI (addrWord nnn))

/-- FX1E (R141): modulo 65536, VF is not written. -/
def execAddI (x : Reg) (s : State) : Host.Outcome State Fault Refusal :=
  complete (s.setI (add16 s.i (regWord s x)))

/-- FX29 (R142): the whole byte of VX is used. -/
def execLdF (x : Reg) (s : State) : Host.Outcome State Fault Refusal :=
  complete (s.setI (Config.fontBase + mul5 (s.reg x)))

/-- FX33 (R143): hundreds, tens, units at I, I+1, I+2; `I` unchanged. -/
def execLdB (x : Reg) (s : State) : Host.Outcome State Fault Refusal :=
  if accessFits s 3 then
    complete (s.writeBytes (effAddr s 0) (bcd (s.reg x)))
  else raise .memoryOutOfRange s

/-- FX55 (R144): V0 to VX at I to I+X, then I plus X+1. -/
def execStRegs (x : Reg) (s : State) : Host.Outcome State Fault Refusal :=
  if accessFits s (x.val + 1) then
    complete (bumpI (s.writeBytes (effAddr s 0) (regBytes s (x.val + 1))) (x.val + 1))
  else raise .memoryOutOfRange s

/-- FX65 (R145): V0 to VX from I to I+X, then I plus X+1. -/
def execLdRegs (x : Reg) (s : State) : Host.Outcome State Fault Refusal :=
  if accessFits s (x.val + 1) then
    complete (bumpI (s.setV (loadedRegs s.v (fun k => s.byte (effAddr s k)) (x.val + 1))) (x.val + 1))
  else raise .memoryOutOfRange s

end Sys2Proof.Machine
end

