-- ==== Sys2Proof/Machine/Keypad.lean ====
section
/-! DEFINITION. Keypad instructions and the key-wait state machine (45_keypad.md R165 to R169). -/

namespace Sys2Proof.Machine

/-- The key VX names; none when VX > 15 (R166). -/
def keyOfReg (x : Reg) (s : State) : Option Bool :=
  if h : (s.reg x).toNat < 16 then some (s.key ⟨(s.reg x).toNat, h⟩) else none

/-- EX9E (R166): skip if the key is pressed; InvalidKeyIndex when VX > 15. -/
def execSkp (x : Reg) (s : State) : Host.Outcome State Fault Refusal :=
  match keyOfReg x s with
  | some pressed => complete (s.skipIf pressed)
  | none => raise .invalidKeyIndex s

/-- EXA1 (R167): skip if the key is not pressed; InvalidKeyIndex when VX > 15. -/
def execSknp (x : Reg) (s : State) : Host.Outcome State Fault Refusal :=
  match keyOfReg x s with
  | some pressed => complete (s.skipIf (!pressed))
  | none => raise .invalidKeyIndex s

/-- FX0A (R168): one transition of the latch `W` per execution; it rewinds PC on every step but the one that sees every
key released after the capture. -/
def execLdVxK (x : Reg) (s : State) : Host.Outcome State Fault Refusal :=
  match s.wait with
  | .idle => retry (if s.anyKey then s.setWait .armed else s)
  | .armed =>
    match s.firstKey with
    | some k => retry ((s.setReg x (BitVec.ofNat 8 k)).setWait .keySeen)
    | none => retry s
  | .keySeen => if s.anyKey then retry s else complete (s.setWait .idle)

end Sys2Proof.Machine
end

