-- ==== Sys2Proof/Machine/Screen.lean ====
section
/-! DEFINITION. Display instructions (44_display.md R155 to R158). -/

namespace Sys2Proof.Machine

/-- 00E0 (R156): every cell 0, DC set. -/
def execCls (s : State) : Host.Outcome State Fault Refusal :=
  complete ((s.setDisp displayClear).setDc true)

/-- The column DXYN starts at: VX mod 64 (R157). -/
def drawX (x : Reg) (s : State) : Nat := (s.reg x).toNat % Config.displayW

/-- The row DXYN starts at: VY mod 32 (R157). -/
def drawY (y : Reg) (s : State) : Nat := (s.reg y).toNat % Config.displayH

/-- R of R157: the rows actually drawn, those above the bottom edge. -/
def drawRows (y : Reg) (n : Nat) (s : State) : Nat := min n (Config.displayH - drawY y s)

/-- DXYN (R157): coordinates from the registers before VF is cleared; only rows drawn are read and range-checked
(20_memory.md R45); VF is the collision; DC is set. -/
def execDrw (x y : Reg) (n : Nat) (s : State) : Host.Outcome State Fault Refusal :=
  if accessFits s (drawRows y n s) then
    let sprite := s.readBytes (effAddr s 0) (drawRows y n s)
    let drawn := blit s.disp (drawX x s) (drawY y s) sprite
    complete (((s.setReg vf (flagByte drawn.2)).setDisp drawn.1).setDc true)
  else raise .memoryOutOfRange s

end Sys2Proof.Machine
end

