-- ==== Sys2Proof/Machine/Timers.lean ====
section
/-! DEFINITION. Timer instructions (46_timers.md R180 to R182). -/

namespace Sys2Proof.Machine

/-- FX07 (R180). -/
def execLdVxDt (x : Reg) (s : State) : Host.Outcome State Fault Refusal :=
  complete (s.setReg x s.dt)

/-- FX15 (R181). -/
def execLdDtVx (x : Reg) (s : State) : Host.Outcome State Fault Refusal :=
  complete (s.setDt (s.reg x))

/-- FX18 (R182). -/
def execLdStVx (x : Reg) (s : State) : Host.Outcome State Fault Refusal :=
  complete (s.setSt (s.reg x))

end Sys2Proof.Machine
end

