-- ==== Sys2Proof/Machine/Step.lean ====
section
/-! DEFINITION. The `step` event (40_fetch_decode_execute.md R83): fetch, decode, execute, all inside one atomic event. -/

namespace Sys2Proof.Machine

/-- One step (R83). A PC above 0xFFE stops at the fetch with no state change (R202; log entry 3); an opcode that matches
no row raises UnrecognizedOpcode after the fetch's writes (R203; log entry 1). -/
def step (s : State) : Host.Outcome State Fault Refusal :=
  match fetch s with
  | none => .fault .fetchOutOfRange
  | some s1 =>
    match decodeWord s1.ir with
    | .ok i => exec i s1
    | .error _ => raise .unrecognizedOpcode s1

/-- A PC from which an instruction can be fetched: PC itself, or the program's entry point when PC > 0xFFE. -/
def State.fetchable (s : State) : State := if canFetch s then s else s.setPc Config.pcReset

/-- The state with an instruction's bits stored where `step` fetches its next instruction (log entry 15). -/
def State.withFetchWord (s : State) (nbits w : Nat) : State :=
  let s1 := s.fetchable
  s1.writeBytes s1.pc.toNat (tableBytes nbits w)

end Sys2Proof.Machine
end

