-- ==== Sys2Proof/Machine/Events.lean ====
section
/-! DEFINITION. The events of the block (40_fetch_decode_execute.md R81, R82): `step` and what the timer source, the keypad
and the host do between steps. -/

namespace Sys2Proof.Machine

/-! ### Codes (60_exceptions.md R200, R201) -/

/-- The numeric code of an error kind (R200). -/
def ErrorKind.code : ErrorKind → Nat
  | .unrecognizedOpcode => 1
  | .stackOverflow => 2
  | .stackUnderflow => 3
  | .loadTooLarge => 4
  | .invalidKeyIndex => 5
  | .invalidRegisterIndex => 6
  | .fetchOutOfRange => 7
  | .memoryOutOfRange => 8

/-- The tag of a result (R201). -/
def Result.tag : Result → Nat
  | .ok => 0
  | .retry => 1
  | .error _ => 2

/-- The code a result carries, for errors (R201). -/
def Result.code : Result → Option Nat
  | .ok | .retry => none
  | .error k => some k.code

/-! ### The timers (46_timers.md R183, R184) -/

/-- A timer one tick later: floor at 0. -/
def timerTick (t : Byte) : Byte := if t = 0#8 then 0#8 else t - 1#8

/-- `tick` (R183): one event serves both timers. -/
def tick (s : State) : State := (s.setDt (timerTick s.dt)).setSt (timerTick s.st)

/-- `sound_active` (R184). -/
def soundActive (s : State) : Bool := s.st != 0#8

/-! ### The keypad (45_keypad.md R170) -/

/-- Set or clear a key; InvalidKeyIndex, and no change, when the index is above 15. -/
def setKey (k : Byte) (pressed : Bool) (s : State) : State × Result :=
  if k.toNat < 16 then (s.setKeys (s.keys.setIfInBounds k.toNat pressed), .ok)
  else (s, .error .invalidKeyIndex)

/-- `key_press(k)`. -/
def keyPress (k : Byte) (s : State) : State × Result := setKey k true s

/-- `key_release(k)`. -/
def keyRelease (k : Byte) (s : State) : State × Result := setKey k false s

/-! ### The host (47_host_operations.md R190, R192, R195; 70_reset_and_hazards.md R225) -/

/-- `load(image, size)` (R190), `size` being the image's length: the whole image at 0x200, or nothing. -/
def load (image : List Byte) (s : State) : State × Result :=
  if image.length ≤ Config.maxRom then (s.writeBytes Config.progBase image, .ok)
  else (s, .error .loadTooLarge)

/-- `display_read` (R192): the cells and the old DC; DC is cleared. -/
def displayRead (s : State) : State × Display × Bool := (s.setDc false, s.disp, s.dc)

/-- `reset` (R225), with the font the machine was built with. The model's draw counter is not rewound: random bytes after a
reset are fresh draws (log entry 4). -/
def resetEvent (s : State) : State := (State.resetWith s.font).setDraws s.draws

/-- The debug view of one register (R195): InvalidRegisterIndex outside [0,16). -/
def debugReg (index : Nat) (s : State) : Except ErrorKind Byte :=
  if h : index < 16 then .ok (s.reg ⟨index, h⟩) else .error .invalidRegisterIndex

/-- The debug view of memory (R195): all 4096 bytes. -/
def debugMem (s : State) : List Byte := s.readBytes 0 Config.memSize

/-- The events of the block (R81). -/
inductive Event where
  | reset
  | step
  | tick
  | keyPress (k : Byte)
  | keyRelease (k : Byte)
  | load (image : List Byte)
  | displayRead
  | debugReg (index : Nat)
  | debugRegs
  | debugI
  | debugPc
  | debugStack
  | debugMem
deriving DecidableEq, Repr

/-- What an event hands out (R81). -/
inductive Output where
  /-- `reset` and `tick` have no result. -/
  | nothing
  | result (r : Result)
  | display (cells : Display) (changed : Bool)
  | reg (value : Byte)
  | regs (values : Vector Byte 16)
  | word (value : Word)
  | stack (slots : Vector Word 16) (sp : Fin 17)
  | memory (bytes : List Byte)
deriving DecidableEq, Repr

/-- The `step` event with its result (R83, R87): a fault of the machine is the error FetchOutOfRange with the state as it
was (R202). Nothing is refused (`Refusal` is raised by nothing); that arm leaves the state as it was. -/
def stepEvent (s : State) : State × Result :=
  match step s with
  | .next t => (t, t.result)
  | .fault .fetchOutOfRange => (s, .error .fetchOutOfRange)
  | .refused _ => (s, .error .unrecognizedOpcode)

/-- One event applied to a state (R82): the state it leaves and what it hands out. -/
def applyEvent (e : Event) (s : State) : State × Output :=
  match e with
  | .reset => (resetEvent s, .nothing)
  | .step => let p := stepEvent s; (p.1, .result p.2)
  | .tick => (Machine.tick s, .nothing)
  | .keyPress k => let p := Machine.keyPress k s; (p.1, .result p.2)
  | .keyRelease k => let p := Machine.keyRelease k s; (p.1, .result p.2)
  | .load image => let p := Machine.load image s; (p.1, .result p.2)
  | .displayRead => let p := Machine.displayRead s; (p.1, .display p.2.1 p.2.2)
  | .debugReg index =>
    match Machine.debugReg index s with
    | .ok b => (s, .reg b)
    | .error k => (s, .result (.error k))
  | .debugRegs => (s, .regs s.v)
  | .debugI => (s, .word s.i)
  | .debugPc => (s, .word s.pc)
  | .debugStack => (s, .stack s.stack s.sp)
  | .debugMem => (s, .memory (Machine.debugMem s))

/-- A sequence of events of any agents in any order, each applied to the state the one before left (R82). -/
def runEvents : List Event → State → State
  | [], s => s
  | e :: es, s => runEvents es (applyEvent e s).1

/-! ### The end of a run (R97) -/

/-- A run has ended: PC holds an address A ≤ 0xFFE whose two bytes decode to 1NNN with NNN = A, a jump to itself. The hardware
has no halt; this is the convention the spec suggests (D24), adopted by the model (DESIGN CHOICE, log entry 19). -/
def runEnded (s : State) : Bool :=
  canFetch s && decide (decodeWord (opcodeAt s s.pc.toNat) = .ok (.jp (s.pc.setWidth 12)))

/-- Step events, at most `n`, until the run has ended (R97). Whatever result a step hands out, an error included, the run
goes on from the state it leaves. -/
def runToEnd : Nat → State → State
  | 0, s => s
  | n + 1, s => if runEnded s then s else runToEnd n (stepEvent s).1

end Sys2Proof.Machine
end

