-- ==== Sys2Proof/Safety.lean ====
section
/-! DEFINITION. What the claims are stated in: the invariant of reachable states (10_state.md R29), and the parts of a
state an instruction leaves alone. -/

namespace Sys2Proof.Machine

/-- The invariants of R29 that the types do not already give (SP ≤ 16, cells of one bit, three latch values), and the
canonical form of memory: PC ≤ 0x10FE, every valid stack entry ≤ 0x1000. -/
structure Inv (s : State) : Prop where
  mem : memWf s.font s.mem
  pc : s.pc.toNat ≤ 0x10FE
  stack : ∀ j : Fin 16, j.val < s.sp.val → s.stack[j].toNat ≤ 0x1000

/-- Every V register but those listed keeps its value. -/
def RegsKeptBut (xs : List Reg) (s t : State) : Prop := ∀ r : Reg, r ∉ xs → t.reg r = s.reg r

/-- Every byte of memory reads as before. -/
def MemKept (s t : State) : Prop := ∀ a : Nat, t.byte a = s.byte a

/-- Every byte of memory but the n bytes from `a` on reads as before. -/
def MemKeptOutside (a n : Nat) (s t : State) : Prop :=
  ∀ b : Nat, (b < a ∨ a + n ≤ b) → t.byte b = s.byte b

/-- The stack and its pointer are as before. -/
def StackKept (s t : State) : Prop := t.stack = s.stack ∧ t.sp = s.sp

/-- Both timers are as before. -/
def TimersKept (s t : State) : Prop := t.dt = s.dt ∧ t.st = s.st

/-- Every cell and the display-changed flag are as before. -/
def DisplayKept (s t : State) : Prop := t.disp = s.disp ∧ t.dc = s.dc

/-- The keys and the wait latch are as before. -/
def KeypadKept (s t : State) : Prop := t.keys = s.keys ∧ t.wait = s.wait

/-- The frame of an instruction of registers alone: but for the V registers listed, PC, `I` and the result, everything is as
before, the instruction register and the count of random draws included. -/
def QuietBut (xs : List Reg) (s t : State) : Prop :=
  RegsKeptBut xs s t ∧ MemKept s t ∧ StackKept s t ∧ TimersKept s t ∧ DisplayKept s t ∧ KeypadKept s t ∧
    t.ir = s.ir ∧ t.draws = s.draws

/-- The sprite DXYN draws (44_display.md R155, R157) has a bit of 1 on cell (cx, cy): the cell lies in the eight columns from
VX mod 64 and in the rows drawn from VY mod 32 (the N rows, cut at the bottom edge), and bit 7 - col of that row's byte is 1. -/
def spriteOn (s : State) (x y : Reg) (n cx cy : Nat) : Bool :=
  let x0 := (s.reg x).toNat % 64
  let y0 := (s.reg y).toNat % 32
  decide (x0 ≤ cx ∧ cx < x0 + 8 ∧ y0 ≤ cy ∧ cy < y0 + min n (32 - y0)) &&
    (s.byte (effAddr s (cy - y0))).getLsbD (7 - (cx - x0))

/-- The V registers an instruction may write (10_state.md R11, R12): its destination X, VF for the six flag writers,
V0 to VX for FX65. -/
def destRegs : Instr → List Reg
  | .ldByte x _ | .addByte x _ | .rnd x _ => [x]
  | .ldReg x _ | .orReg x _ | .andReg x _ | .xorReg x _ => [x]
  | .addReg x _ | .subReg x _ | .subnReg x _ | .shrReg x _ | .shlReg x _ => [x, vf]
  | .drw _ _ _ => [vf]
  | .ldVxDt x | .ldVxK x => [x]
  | .ldRegs x => (List.finRange 16).filter (fun r => r.val ≤ x.val)
  | .cls | .ret | .jp _ | .call _ | .seByte _ _ | .sneByte _ _ | .seReg _ _ | .sneReg _ _ => []
  | .ldI _ | .jpV0 _ | .skp _ | .sknp _ | .ldDtVx _ | .ldStVx _ | .addI _ | .ldF _ | .ldB _ | .stRegs _ => []

/-- The error an instruction can raise in its execute phase: one kind at most (60_exceptions.md R200, R205). -/
def errorOf : Instr → Option ErrorKind
  | .ret => some .stackUnderflow
  | .call _ => some .stackOverflow
  | .skp _ | .sknp _ => some .invalidKeyIndex
  | .drw _ _ _ | .ldB _ | .stRegs _ | .ldRegs _ => some .memoryOutOfRange
  | .cls | .jp _ | .seByte _ _ | .sneByte _ _ | .seReg _ _ | .sneReg _ _ | .ldByte _ _ | .addByte _ _ => none
  | .ldReg _ _ | .orReg _ _ | .andReg _ _ | .xorReg _ _ | .addReg _ _ | .subReg _ _ | .subnReg _ _ => none
  | .shrReg _ _ | .shlReg _ _ | .ldI _ | .jpV0 _ | .rnd _ _ | .ldVxDt _ | .ldVxK _ | .ldDtVx _ => none
  | .ldStVx _ | .addI _ | .ldF _ => none

/-- The instruction completed with result Ok, PC left at its post-fetch value (10_state.md R15). -/
def CompletedInPlace (s t : State) : Prop := t.pc = s.pc ∧ t.result = .ok

end Sys2Proof.Machine
end

