-- ==== Sys2Proof/Certificates/Slice0/Obligations.lean ====
section
/-! DEFINITION. The statements for the provers. Each docstring names the rule of spec/ it formalises. Where it says that an
error is a next state with the kind in `result`, or that a fetch beyond memory is a fault, that form is the MODEL's choice
(log entries 1 to 3); the state it leaves is the spec's. -/

open Sys2Proof Sys2Proof.Machine

/-! ### Encoding -/

/-- 30_encoding.md R62, R63: words written from the table's patterns decode to their instructions. That 0x00E1 is rejected
is the spec's decision D2 (R64 (a), R65; log entry 10). -/
def Obligations.SampleWordsDecode : Prop :=
  decodeWord 0x00E0#16 = .ok .cls ∧ decodeWord 0x1232#16 = .ok (.jp 0x232#12) ∧
  decodeWord 0x332A#16 = .ok (.seByte 3 0x2A#8) ∧ decodeWord 0x8126#16 = .ok (.shrReg 1 2) ∧
  decodeWord 0xB300#16 = .ok (.jpV0 0x300#12) ∧ decodeWord 0xD012#16 = .ok (.drw 0 1 2) ∧
  decodeWord 0xE29E#16 = .ok (.skp 2) ∧ decodeWord 0xF30A#16 = .ok (.ldVxK 3) ∧
  decodeWord 0xF255#16 = .ok (.stRegs 2) ∧ decodeWord 0x00E1#16 = .error (.unrecognizedOpcode 0x00E1#16)

/-- R60 to R63: every well-formed instruction, encoded as two bytes in front of anything, decodes to itself and leaves
what follows. -/
def Obligations.EncodedInstructionsDecodeBack : Prop :=
  ∀ (i : Instr) (rest : List Byte), i.wellFormed = true → decodeBytes (encodeBytes i ++ rest) = .ok (i, rest)

/-- The other direction: a word that decodes is the encoding of the well-formed instruction it decodes to, so no two
words are one instruction. -/
def Obligations.DecodedWordsEncodeBack : Prop :=
  ∀ (w : Word) (i : Instr), decodeWord w = .ok i → i.wellFormed = true ∧ encode i = w

/-- R63 (the masks of classes 0, 5 and 9 are the spec's decisions D2, D3, R64, log entry 10): the decoder is the opcode map. A word
decodes to an instruction exactly when a row selects it and builds that instruction; the map has 34 rows and no word is selected by two of them. -/
def Obligations.DecoderFollowsTheOpcodeMap : Prop :=
  opcodeTable.length = 34 ∧
  opcodeTable.Pairwise (fun r r' => ∀ w : Word, ¬ (r.selects w = true ∧ r'.selects w = true)) ∧
  ∀ (w : Word) (i : Instr), decodeWord w = .ok i ↔ ∃ r ∈ opcodeTable, r.selects w = true ∧ r.build w = i

/-- R65 (class 0, 5 and 9 words by the spec's own decisions D2, D3): the unrecognized words are exactly those of the
rule's table, and each is rejected under its own name. -/
def Obligations.UnrecognizedWordsAreTheTable : Prop :=
  ∀ w : Word, decodeWord w = .error (.unrecognizedOpcode w) ↔
    (fieldT w = 0x0#4 ∧ w ≠ 0x00E0#16 ∧ w ≠ 0x00EE#16) ∨
    (fieldT w = 0x5#4 ∧ fieldN w ≠ 0x0#4) ∨
    (fieldT w = 0x8#4 ∧ fieldN w ∈ [0x8#4, 0x9#4, 0xA#4, 0xB#4, 0xC#4, 0xD#4, 0xF#4]) ∨
    (fieldT w = 0x9#4 ∧ fieldN w ≠ 0x0#4) ∨
    (fieldT w = 0xE#4 ∧ fieldNN w ∉ [0x9E#8, 0xA1#8]) ∨
    (fieldT w = 0xF#4 ∧
      fieldNN w ∉ [0x07#8, 0x0A#8, 0x15#8, 0x18#8, 0x1E#8, 0x29#8, 0x33#8, 0x55#8, 0x65#8])

/-! ### The step -/

/-- 40_fetch_decode_execute.md R84, 20_memory.md R41: the fetch reads the bytes at PC and PC + 1, the first as bits 15:8,
writes the opcode into IR, advances PC by 2, changes nothing else, and does not depend on `W`. -/
def Obligations.FetchReadsTwoBytesBigEndian : Prop :=
  ∀ s : State, s.pc.toNat ≤ 0xFFE → ∃ t, fetch s = some t ∧
    t.ir.toNat = (s.byte s.pc.toNat).toNat * 256 + (s.byte (s.pc.toNat + 1)).toNat ∧
    t.pc.toNat = s.pc.toNat + 2 ∧ t = (s.setIr t.ir).setPc t.pc ∧
    ∀ w : WaitLatch, fetch (s.setWait w) = some (t.setWait w)

/-- R83 to R86: when the bytes at PC decode to an instruction, the step is its execute phase on the state the fetch leaves. -/
def Obligations.StepRunsDecodedInstruction : Prop :=
  ∀ (s : State) (i : Instr), s.pc.toNat ≤ 0xFFE → decodeWord (opcodeAt s s.pc.toNat) = .ok i →
    step s = exec i ((s.setIr (opcodeAt s s.pc.toNat)).setPc (s.pc + 2#16))

/-- 60_exceptions.md R203 (the next state with its result is the model's form, log entry 1): an opcode that matches no row
leaves IR the opcode, PC two further and nothing else changed. -/
def Obligations.UnrecognizedOpcodeOnlyAdvances : Prop :=
  ∀ (s : State) (e : DecodeError), s.pc.toNat ≤ 0xFFE → decodeWord (opcodeAt s s.pc.toNat) = .error e →
    step s = .next (((s.setIr (opcodeAt s s.pc.toNat)).setPc (s.pc + 2#16)).setResult
      (.error .unrecognizedOpcode))

/-- 20_memory.md R42, 60_exceptions.md R202 (the spec's decision D4; that the stop is a fault is the model's, log entry 3):
a step stops exactly when PC > 0xFFE, by that one fault, and the step EVENT then changes no state and answers
FetchOutOfRange; from every other state the step answers a next state. -/
def Obligations.StepStopsExactlyBeyondMemory : Prop :=
  ∀ s : State,
    (0xFFE < s.pc.toNat → step s = .fault .fetchOutOfRange ∧
      applyEvent .step s = (s, .result (.error .fetchOutOfRange))) ∧
    (s.pc.toNat ≤ 0xFFE → ∃ t, step s = .next t ∧ applyEvent .step s = (t, .result t.result))

/-- 60_exceptions.md R204, R205, R200: an instruction that ends in an error has changed nothing (IR and PC were written by
the fetch), and each instruction has at most one kind of error. -/
def Obligations.ErrorsComeBeforeAnyWrite : Prop :=
  ∀ (i : Instr) (s t : State) (k : ErrorKind), exec i s = .next t → t.result = .error k →
    t = s.setResult (.error k) ∧ errorOf i = some k

/-! ### Control flow (41_control_flow.md) -/

/-- R102: 1NNN. -/
def Obligations.JumpGoesToNNN : Prop :=
  ∀ (s : State) (nnn : Addr12), decodeWord (formatA 0x1#4 nnn) = .ok (.jp nnn) ∧
    ∃ t, exec (.jp nnn) s = .next t ∧ t.pc.toNat = nnn.toNat ∧ t.i = s.i ∧ QuietBut [] s t ∧ t.result = .ok

/-- R108 (the sum not cut to 12 bits is the spec's inference from the table): BNNN adds V0, always register 0. -/
def Obligations.JumpPlusV0IsNotReduced : Prop :=
  ∀ (s : State) (nnn : Addr12), decodeWord (formatA 0xB#4 nnn) = .ok (.jpV0 nnn) ∧
    ∃ t, exec (.jpV0 nnn) s = .next t ∧ t.pc.toNat = nnn.toNat + (s.reg 0).toNat ∧ t.i = s.i ∧
      QuietBut [] s t ∧ t.result = .ok

/-- R104, R105: 3XNN and 4XNN skip the next instruction when VX is, or is not, NN. -/
def Obligations.SkipsComparingWithByte : Prop :=
  ∀ (s : State) (x : Reg) (nn : Byte),
    decodeWord (formatXB 0x3#4 x nn) = .ok (.seByte x nn) ∧ decodeWord (formatXB 0x4#4 x nn) = .ok (.sneByte x nn) ∧
    (∃ t, exec (.seByte x nn) s = .next t ∧ t.pc = (if s.reg x = nn then s.pc + 2#16 else s.pc) ∧ t.i = s.i ∧
      QuietBut [] s t ∧ t.result = .ok) ∧
    (∃ t, exec (.sneByte x nn) s = .next t ∧ t.pc = (if s.reg x = nn then s.pc else s.pc + 2#16) ∧ t.i = s.i ∧
      QuietBut [] s t ∧ t.result = .ok)

/-- R106, R107: 5XY0 and 9XY0 skip the next instruction when VX and VY are, or are not, equal; the encodings with a low
nibble other than 0 are rejected (the spec's decision D3). -/
def Obligations.SkipsComparingRegisters : Prop :=
  ∀ (s : State) (x y : Reg),
    decodeWord (formatXY 0x5#4 x y 0x0#4) = .ok (.seReg x y) ∧ decodeWord (formatXY 0x9#4 x y 0x0#4) = .ok (.sneReg x y) ∧
    (∀ n : Nibble, n ≠ 0x0#4 → ∀ i, decodeWord (formatXY 0x5#4 x y n) ≠ .ok i ∧
      decodeWord (formatXY 0x9#4 x y n) ≠ .ok i) ∧
    (∃ t, exec (.seReg x y) s = .next t ∧ t.pc = (if s.reg x = s.reg y then s.pc + 2#16 else s.pc) ∧ t.i = s.i ∧
      QuietBut [] s t ∧ t.result = .ok) ∧
    (∃ t, exec (.sneReg x y) s = .next t ∧ t.pc = (if s.reg x = s.reg y then s.pc else s.pc + 2#16) ∧ t.i = s.i ∧
      QuietBut [] s t ∧ t.result = .ok)

/-- R103: 2NNN with room on the stack pushes the post-fetch PC into slot SP and jumps; nothing else changes. -/
def Obligations.CallPushesAndJumps : Prop :=
  ∀ (s : State) (nnn : Addr12), s.sp.val < 16 →
    ∃ t, exec (.call nnn) s = .next t ∧ t.pc.toNat = nnn.toNat ∧ t.sp.val = s.sp.val + 1 ∧
      (∀ j : Fin 16, t.stack[j] = if j.val = s.sp.val then s.pc else s.stack[j]) ∧
      t.i = s.i ∧ RegsKeptBut [] s t ∧ MemKept s t ∧ TimersKept s t ∧ DisplayKept s t ∧ KeypadKept s t ∧
      t.ir = s.ir ∧ t.draws = s.draws ∧ t.result = .ok

/-- R101: 00EE with a stack that is not empty pops the top entry into PC; the slot keeps its value. -/
def Obligations.ReturnPopsIntoPc : Prop :=
  ∀ (s : State) (j : Fin 16), s.sp.val = j.val + 1 →
    ∃ t, exec .ret s = .next t ∧ t.pc = s.stack[j] ∧ t.sp.val = j.val ∧ t.stack = s.stack ∧
      t.i = s.i ∧ RegsKeptBut [] s t ∧ MemKept s t ∧ TimersKept s t ∧ DisplayKept s t ∧ KeypadKept s t ∧
      t.ir = s.ir ∧ t.draws = s.draws ∧ t.result = .ok

/-- R101, R103, R210, R211 (the next state with its result is the model's form, log entry 1): a call on a full stack and a
return on an empty one raise their errors and change nothing. -/
def Obligations.StackErrorsChangeNothing : Prop :=
  (∀ (s : State) (nnn : Addr12), s.sp.val = 16 → exec (.call nnn) s = .next (s.setResult (.error .stackOverflow))) ∧
  (∀ s : State, s.sp.val = 0 → exec .ret s = .next (s.setResult (.error .stackUnderflow)))

/-- R109: a call, then anything that leaves the stack alone, then a return: PC is the call's post-fetch PC again and SP is
the depth before the call. -/
def Obligations.ReturnUndoesCall : Prop :=
  ∀ (s t t' : State) (nnn : Addr12), s.sp.val < 16 → exec (.call nnn) s = .next t →
    t'.stack = t.stack → t'.sp = t.sp →
    ∃ u, exec .ret t' = .next u ∧ u.pc = s.pc ∧ u.sp = s.sp

/-! ### Registers and arithmetic (42_alu_and_registers.md) -/

/-- R122, R123: 6XNN and 7XNN; no flag, X = F included. -/
def Obligations.LoadAndAddImmediate : Prop :=
  ∀ (s : State) (x : Reg) (nn : Byte),
    decodeWord (formatXB 0x6#4 x nn) = .ok (.ldByte x nn) ∧ decodeWord (formatXB 0x7#4 x nn) = .ok (.addByte x nn) ∧
    (∃ t, exec (.ldByte x nn) s = .next t ∧ t.reg x = nn ∧ t.i = s.i ∧ QuietBut [x] s t ∧ CompletedInPlace s t) ∧
    (∃ t, exec (.addByte x nn) s = .next t ∧ (t.reg x).toNat = ((s.reg x).toNat + nn.toNat) % 256 ∧ t.i = s.i ∧
      QuietBut [x] s t ∧ CompletedInPlace s t)

/-- R124 to R127: 8XY0, 8XY1, 8XY2, 8XY3 write VX alone; VF is not written unless X = F. -/
def Obligations.CopyAndLogicWriteNoFlag : Prop :=
  ∀ (s : State) (x y : Reg),
    (decodeWord (formatXY 0x8#4 x y 0x0#4) = .ok (.ldReg x y) ∧ decodeWord (formatXY 0x8#4 x y 0x1#4) = .ok (.orReg x y) ∧
      decodeWord (formatXY 0x8#4 x y 0x2#4) = .ok (.andReg x y) ∧
      decodeWord (formatXY 0x8#4 x y 0x3#4) = .ok (.xorReg x y)) ∧
    (∃ t, exec (.ldReg x y) s = .next t ∧ t.reg x = s.reg y ∧ t.i = s.i ∧ QuietBut [x] s t ∧ CompletedInPlace s t) ∧
    (∃ t, exec (.orReg x y) s = .next t ∧ (∀ b, (t.reg x).getLsbD b = ((s.reg x).getLsbD b || (s.reg y).getLsbD b)) ∧
      t.i = s.i ∧ QuietBut [x] s t ∧ CompletedInPlace s t) ∧
    (∃ t, exec (.andReg x y) s = .next t ∧ (∀ b, (t.reg x).getLsbD b = ((s.reg x).getLsbD b && (s.reg y).getLsbD b)) ∧
      t.i = s.i ∧ QuietBut [x] s t ∧ CompletedInPlace s t) ∧
    (∃ t, exec (.xorReg x y) s = .next t ∧ (∀ b, (t.reg x).getLsbD b = ((s.reg x).getLsbD b ^^ (s.reg y).getLsbD b)) ∧
      t.i = s.i ∧ QuietBut [x] s t ∧ CompletedInPlace s t)

/-- R128, R121 (assignments in order, the registers read again: the spec's decision D1): 8XY4 for all X and Y. With c the
carry of VX + VY, the result adds the NEW VF where X or Y is F. -/
def Obligations.AddSetsCarryThenSum : Prop :=
  ∀ (s : State) (x y : Reg),
    let a := (s.reg x).toNat
    let b := (s.reg y).toNat
    let c := if a + b > 255 then 1 else 0
    ∃ t, exec (.addReg x y) s = .next t ∧
      (x ≠ vf → (t.reg vf).toNat = c ∧ (t.reg x).toNat = (a + (if y = vf then c else b)) % 256) ∧
      (x = vf → (t.reg vf).toNat = (c + (if y = vf then c else b)) % 256) ∧
      t.i = s.i ∧ QuietBut [x, vf] s t ∧ CompletedInPlace s t

/-- R129, R131, R120, R121 (assignments in order: the spec's decision D1): 8XY5 and 8XY7 for all X and Y. The flag is
STRICTLY greater; the result reads the NEW VF where X or Y is F. -/
def Obligations.SubtractionsSetStrictFlagThenDifference : Prop :=
  ∀ (s : State) (x y : Reg),
    let a := (s.reg x).toNat
    let b := (s.reg y).toNat
    (let g := if a > b then 1 else 0
      ∃ t, exec (.subReg x y) s = .next t ∧
        (x ≠ vf → (t.reg vf).toNat = g ∧ (t.reg x).toNat = (256 + a - (if y = vf then g else b)) % 256) ∧
        (x = vf → (t.reg vf).toNat = (256 + g - (if y = vf then g else b)) % 256) ∧
        t.i = s.i ∧ QuietBut [x, vf] s t ∧ CompletedInPlace s t) ∧
    (let g := if b > a then 1 else 0
      ∃ t, exec (.subnReg x y) s = .next t ∧
        (x ≠ vf → (t.reg vf).toNat = g ∧ (t.reg x).toNat = (256 + (if y = vf then g else b) - a) % 256) ∧
        (x = vf → (t.reg vf).toNat = (256 + (if y = vf then g else b) - g) % 256) ∧
        t.i = s.i ∧ QuietBut [x, vf] s t ∧ CompletedInPlace s t)

/-- R130, R132, R121 (assignments in order, which settles X = F: the spec's decision D1): 8XY6 and 8XYE shift the copy of VY
by one; VF takes the bit shifted out; with X = F the last assignment shifts that flag. VY keeps its value unless it is VX
or VF. -/
def Obligations.ShiftsMoveTheCopyOfVy : Prop :=
  ∀ (s : State) (x y : Reg),
    let b := (s.reg y).toNat
    (decodeWord (formatXY 0x8#4 x y 0x6#4) = .ok (.shrReg x y) ∧ decodeWord (formatXY 0x8#4 x y 0xE#4) = .ok (.shlReg x y)) ∧
    (∃ t, exec (.shrReg x y) s = .next t ∧
      (x ≠ vf → (t.reg vf).toNat = b % 2 ∧ (t.reg x).toNat = b / 2) ∧ (x = vf → (t.reg vf).toNat = 0) ∧
      t.i = s.i ∧ QuietBut [x, vf] s t ∧ CompletedInPlace s t) ∧
    (∃ t, exec (.shlReg x y) s = .next t ∧
      (x ≠ vf → (t.reg vf).toNat = b / 128 ∧ (t.reg x).toNat = 2 * b % 256) ∧
      (x = vf → (t.reg vf).toNat = 2 * (b / 128)) ∧
      t.i = s.i ∧ QuietBut [x, vf] s t ∧ CompletedInPlace s t)

/-- R133 (the byte is a free value, log entry 4): CXNN masks the byte drawn, whatever it is, and consumes one draw. -/
def Obligations.RandomByteIsMasked : Prop :=
  ∀ (s : State) (x : Reg) (nn : Byte), decodeWord (formatXB 0xC#4 x nn) = .ok (.rnd x nn) ∧
    (∀ (r : Byte) (u : State), (rndWith r x nn u).reg x = r &&& nn) ∧
    ∃ t, exec (.rnd x nn) s = .next t ∧ t.reg x = Config.randByte s.draws &&& nn ∧ t.draws = s.draws + 1 ∧
      t.i = s.i ∧ RegsKeptBut [x] s t ∧ MemKept s t ∧ StackKept s t ∧ TimersKept s t ∧ DisplayKept s t ∧
      KeypadKept s t ∧ t.ir = s.ir ∧ CompletedInPlace s t

/-! ### Index register and memory (43_index_and_memory.md) -/

/-- R140: ANNN. -/
def Obligations.LoadIndexWithNNN : Prop :=
  ∀ (s : State) (nnn : Addr12), decodeWord (formatA 0xA#4 nnn) = .ok (.ldI nnn) ∧
    ∃ t, exec (.ldI nnn) s = .next t ∧ t.i.toNat = nnn.toNat ∧ QuietBut [] s t ∧ CompletedInPlace s t

/-- R141, R142 (VF untouched, the wrap at 16 bits and the whole byte of VX are the spec's decisions D6, D7): FX1E and
FX29. -/
def Obligations.IndexArithmetic : Prop :=
  ∀ (s : State) (x : Reg),
    (∃ t, exec (.addI x) s = .next t ∧ t.i.toNat = (s.i.toNat + (s.reg x).toNat) % 65536 ∧ QuietBut [] s t ∧
      CompletedInPlace s t) ∧
    (∃ t, exec (.ldF x) s = .next t ∧ t.i.toNat = 5 * (s.reg x).toNat ∧ QuietBut [] s t ∧ CompletedInPlace s t)

/-- R143: FX33 with I + 2 inside memory stores the three decimal digits at I, I + 1, I + 2 and nothing else. -/
def Obligations.DecimalDigitsAreStored : Prop :=
  ∀ (s : State) (x : Reg), s.i.toNat + 2 ≤ 0xFFF →
    ∃ t, exec (.ldB x) s = .next t ∧
      (t.byte (effAddr s 0)).toNat = (s.reg x).toNat / 100 ∧
      (t.byte (effAddr s 1)).toNat = (s.reg x).toNat / 10 % 10 ∧
      (t.byte (effAddr s 2)).toNat = (s.reg x).toNat % 10 ∧
      MemKeptOutside (effAddr s 0) 3 s t ∧ t.i = s.i ∧ RegsKeptBut [] s t ∧ StackKept s t ∧ TimersKept s t ∧
      DisplayKept s t ∧ KeypadKept s t ∧ t.ir = s.ir ∧ t.draws = s.draws ∧ CompletedInPlace s t

/-- R144: FX55 with I + X inside memory stores V0 to VX at I to I + X, nothing else, and adds X + 1 to I. -/
def Obligations.RegistersAreStored : Prop :=
  ∀ (s : State) (x : Reg), s.i.toNat + x.val ≤ 0xFFF →
    ∃ t, exec (.stRegs x) s = .next t ∧
      (∀ r : Reg, r.val ≤ x.val → t.byte (effAddr s r.val) = s.reg r) ∧
      MemKeptOutside (effAddr s 0) (x.val + 1) s t ∧ t.i.toNat = s.i.toNat + x.val + 1 ∧
      RegsKeptBut [] s t ∧ StackKept s t ∧ TimersKept s t ∧ DisplayKept s t ∧ KeypadKept s t ∧
      t.ir = s.ir ∧ t.draws = s.draws ∧ CompletedInPlace s t

/-- R145: FX65 with I + X inside memory loads V0 to VX from I to I + X, no other register, writes no memory, and adds
X + 1 to I. -/
def Obligations.RegistersAreLoaded : Prop :=
  ∀ (s : State) (x : Reg), s.i.toNat + x.val ≤ 0xFFF →
    ∃ t, exec (.ldRegs x) s = .next t ∧
      (∀ r : Reg, t.reg r = if r.val ≤ x.val then s.byte (effAddr s r.val) else s.reg r) ∧
      t.i.toNat = s.i.toNat + x.val + 1 ∧ MemKept s t ∧ StackKept s t ∧ TimersKept s t ∧ DisplayKept s t ∧
      KeypadKept s t ∧ t.ir = s.ir ∧ t.draws = s.draws ∧ CompletedInPlace s t

/-- R145: FX55, then everything but the bytes of memory changed at will, then ANNN back to the same address and FX65: V0 to VX are what they were. -/
def Obligations.StoreThenLoadRestoresRegisters : Prop :=
  ∀ (s t t' : State) (x : Reg) (nnn : Addr12), s.i.toNat + x.val ≤ 0xFFF → nnn.toNat = s.i.toNat →
    exec (.stRegs x) s = .next t → MemKept t t' →
    ∃ u w, exec (.ldI nnn) t' = .next u ∧ exec (.ldRegs x) u = .next w ∧
      ∀ r : Reg, r.val ≤ x.val → w.reg r = s.reg r

/-- 20_memory.md R45, 60_exceptions.md R212 (the spec's decisions D5, D28; the next state with its result is the model's form,
log entry 1): FX33, FX55, FX65 and DXYN whose bytes reach above 0xFFF raise MemoryOutOfRange and change nothing. DXYN's bytes
are those of the rows it would draw. -/
def Obligations.AccessBeyondMemoryChangesNothing : Prop :=
  ∀ (s : State) (x y : Reg) (n : Nat),
    (0xFFF < s.i.toNat + 2 → exec (.ldB x) s = .next (s.setResult (.error .memoryOutOfRange))) ∧
    (0xFFF < s.i.toNat + x.val → exec (.stRegs x) s = .next (s.setResult (.error .memoryOutOfRange)) ∧
      exec (.ldRegs x) s = .next (s.setResult (.error .memoryOutOfRange))) ∧
    (0 < n → 0xFFF < s.i.toNat + min n (32 - (s.reg y).toNat % 32) - 1 →
      exec (.drw x y n) s = .next (s.setResult (.error .memoryOutOfRange)))

/-- 20_memory.md R52: the bytes FX55 stores over the next instruction are the ones the next fetch reads. -/
def Obligations.StoredOpcodeIsFetchedNext : Prop :=
  ∀ (s t : State) (x r r' : Reg), exec (.stRegs x) s = .next t → s.i.toNat + x.val ≤ 0xFFF →
    r'.val = r.val + 1 → r'.val ≤ x.val → s.pc.toNat = effAddr s r.val →
    ∃ u, fetch t = some u ∧ u.ir.toNat = (s.reg r).toNat * 256 + (s.reg r').toNat

/-- THE MODEL'S OWN representation (log entry 18, DESIGN CHOICE; no rule of the spec): the canonical form of memory is one
form. Two memories in it that read alike at every address, whatever the font, are equal data. -/
def Obligations.CanonicalMemoriesReadingAlikeAreEqual : Prop :=
  ∀ (f : Config.Font) (m m' : Memory), memWf f m → memWf f m' → (∀ a, memRead f m a = memRead f m' a) → m = m'

/-! ### Display (44_display.md) -/

/-- R156: 00E0 clears every cell and sets DC, whatever was there; nothing else changes. -/
def Obligations.ClearScreenClearsEveryCell : Prop :=
  decodeWord 0x00E0#16 = .ok .cls ∧
  ∀ s : State, ∃ t, exec .cls s = .next t ∧
    (∀ cx cy, cx < 64 → cy < 32 → displayCell t.disp cx cy = false) ∧ t.dc = true ∧
    t.i = s.i ∧ RegsKeptBut [] s t ∧ MemKept s t ∧ StackKept s t ∧ TimersKept s t ∧ KeypadKept s t ∧
    t.ir = s.ir ∧ t.draws = s.draws ∧ CompletedInPlace s t

/-- R157, R155 (which rows are checked is the spec's decision D28): DXYN whose drawn rows lie inside memory flips exactly the
cells of the grid under sprite bits of 1, sets VF to 1 exactly when one of them was 1 and to 0 otherwise, sets DC; coordinates
come from VX and VY as they were, X = F and Y = F included. -/
def Obligations.DrawFlipsCellsAndReportsCollision : Prop :=
  ∀ (s : State) (x y : Reg) (n : Nat),
    (n = 0 ∨ s.i.toNat + min n (32 - (s.reg y).toNat % 32) - 1 ≤ 0xFFF) →
    ∃ t, exec (.drw x y n) s = .next t ∧
      (∀ cx cy, cx < 64 → cy < 32 →
        displayCell t.disp cx cy = (displayCell s.disp cx cy ^^ spriteOn s x y n cx cy)) ∧
      ((∃ cx cy, cx < 64 ∧ cy < 32 ∧ spriteOn s x y n cx cy = true ∧ displayCell s.disp cx cy = true) →
        t.reg vf = 1#8) ∧
      ((∀ cx cy, cx < 64 → cy < 32 → spriteOn s x y n cx cy = true → displayCell s.disp cx cy = false) →
        t.reg vf = 0#8) ∧
      t.dc = true ∧ t.i = s.i ∧ RegsKeptBut [vf] s t ∧ MemKept s t ∧ StackKept s t ∧ TimersKept s t ∧
      KeypadKept s t ∧ t.ir = s.ir ∧ t.draws = s.draws ∧ CompletedInPlace s t

/-- R158 (a), (b) (the law corrected by C3): drawing the same sprite twice in succession restores the display, and the
second draw reports a collision when the first turned a cell from 0 to 1. VX and VY are the same at both draws, which only
X = F or Y = F can break (the first draw writes VF). -/
def Obligations.DrawingTwiceRestoresTheDisplay : Prop :=
  ∀ (s t u : State) (x y : Reg) (n : Nat),
    exec (.drw x y n) s = .next t → t.result = .ok → t.reg x = s.reg x → t.reg y = s.reg y →
    exec (.drw x y n) t = .next u →
    u.disp = s.disp ∧
    ((∃ cx cy, cx < 64 ∧ cy < 32 ∧ displayCell s.disp cx cy = false ∧ displayCell t.disp cx cy = true) →
      u.reg vf = 1#8)

/-! ### Keypad (45_keypad.md) -/

/-- R166, R167 (the error for VX > 15 is the spec's decision D8, its form log entry 1): EX9E and EXA1 skip on the key VX names
being pressed, or not pressed; with VX > 15 they raise InvalidKeyIndex and change nothing. -/
def Obligations.KeySkipsTestTheNamedKey : Prop :=
  ∀ (s : State) (x : Reg),
    (∀ k : Fin 16, (s.reg x).toNat = k.val →
      (∃ t, exec (.skp x) s = .next t ∧ t.pc = (if s.key k = true then s.pc + 2#16 else s.pc) ∧ t.i = s.i ∧
        QuietBut [] s t ∧ t.result = .ok) ∧
      (∃ t, exec (.sknp x) s = .next t ∧ t.pc = (if s.key k = true then s.pc else s.pc + 2#16) ∧ t.i = s.i ∧
        QuietBut [] s t ∧ t.result = .ok)) ∧
    (15 < (s.reg x).toNat → exec (.skp x) s = .next (s.setResult (.error .invalidKeyIndex)) ∧
      exec (.sknp x) s = .next (s.setResult (.error .invalidKeyIndex)))

/-- R168, R169 (a) (armed with no key, and any key in key_seen, are the spec's decisions D10, D11): one execution of FX0A is
one transition of the latch. It completes exactly in key_seen with no key pressed, and else rewinds PC with result Retry; VX is
written exactly in armed with a key pressed, with the lowest pressed index; nothing else changes. -/
def Obligations.KeyWaitMakesOneTransition : Prop :=
  ∀ (s : State) (x : Reg), ∃ t, exec (.ldVxK x) s = .next t ∧
    (s.wait = .idle → t.wait = (if s.anyKey then .armed else .idle)) ∧
    (s.wait = .armed → t.wait = (if s.anyKey then .keySeen else .armed)) ∧
    (s.wait = .keySeen → t.wait = (if s.anyKey then .keySeen else .idle)) ∧
    (s.wait = .keySeen ∧ s.anyKey = false → t.pc = s.pc ∧ t.result = .ok) ∧
    (¬ (s.wait = .keySeen ∧ s.anyKey = false) → t.pc = s.pc - 2#16 ∧ t.result = .retry) ∧
    (s.wait = .armed → ∀ k : Fin 16, s.key k = true → (∀ j : Fin 16, j.val < k.val → s.key j = false) →
      (t.reg x).toNat = k.val) ∧
    (¬ (s.wait = .armed ∧ s.anyKey = true) → t.reg x = s.reg x) ∧
    t.keys = s.keys ∧ t.i = s.i ∧ RegsKeptBut [x] s t ∧ MemKept s t ∧ StackKept s t ∧ TimersKept s t ∧
    DisplayKept s t ∧ t.ir = s.ir ∧ t.draws = s.draws

/-- R169 (b) (that the second execution stays armed when it sees no key, and that the third needs every key up, are the spec's
decisions D10, D11; log entry 13): from idle the wait takes at least three executions, and three suffice exactly when the
first two see a key and the third sees none; between them the keys and everything but the latch may change at will. -/
def Obligations.KeyWaitTakesThreeExecutions : Prop :=
  ∀ (s1 t1 s2 t2 s3 t3 : State) (x : Reg), s1.wait = .idle →
    exec (.ldVxK x) s1 = .next t1 → s2.wait = t1.wait →
    exec (.ldVxK x) s2 = .next t2 → s3.wait = t2.wait →
    exec (.ldVxK x) s3 = .next t3 →
    t1.result = .retry ∧ t2.result = .retry ∧
    (t3.result = .ok ↔ s1.anyKey = true ∧ s2.anyKey = true ∧ s3.anyKey = false)

/-! ### Timers (46_timers.md) -/

/-- R180 to R182: FX07, FX15, FX18. -/
def Obligations.TimerInstructionsMoveBytes : Prop :=
  ∀ (s : State) (x : Reg),
    (decodeWord (formatXB 0xF#4 x 0x07#8) = .ok (.ldVxDt x) ∧ decodeWord (formatXB 0xF#4 x 0x15#8) = .ok (.ldDtVx x) ∧
      decodeWord (formatXB 0xF#4 x 0x18#8) = .ok (.ldStVx x)) ∧
    (∃ t, exec (.ldVxDt x) s = .next t ∧ t.reg x = s.dt ∧ t.i = s.i ∧ QuietBut [x] s t ∧ CompletedInPlace s t) ∧
    (∃ t, exec (.ldDtVx x) s = .next t ∧ t.dt = s.reg x ∧ t.st = s.st ∧ t.i = s.i ∧ RegsKeptBut [] s t ∧
      MemKept s t ∧ StackKept s t ∧ DisplayKept s t ∧ KeypadKept s t ∧ t.ir = s.ir ∧ t.draws = s.draws ∧
      CompletedInPlace s t) ∧
    (∃ t, exec (.ldStVx x) s = .next t ∧ t.st = s.reg x ∧ soundActive t = decide (s.reg x ≠ 0#8) ∧ t.dt = s.dt ∧
      t.i = s.i ∧ RegsKeptBut [] s t ∧ MemKept s t ∧ StackKept s t ∧ DisplayKept s t ∧ KeypadKept s t ∧
      t.ir = s.ir ∧ t.draws = s.draws ∧ CompletedInPlace s t)

/-- R183, R184 (one tick serves both timers: the spec's decision D19): after n ticks in a row each timer has counted down by n,
stopping at 0, sound is on while ticks are fewer than ST was, and nothing else has changed. -/
def Obligations.TicksCountBothTimersDown : Prop :=
  ∀ (n : Nat) (s : State),
    let t := runEvents (List.replicate n .tick) s
    t.dt.toNat = s.dt.toNat - n ∧ t.st.toNat = s.st.toNat - n ∧ soundActive t = decide (n < s.st.toNat) ∧
    t = (s.setDt t.dt).setSt t.st

/-! ### Host events (45_keypad.md, 47_host_operations.md, 70_reset_and_hazards.md) -/

/-- R170 (the index is 8 bits wide: the spec's decision D25): a press sets its key, a release clears it, no other key and
nothing else changes; an index above 15 is InvalidKeyIndex and changes nothing. -/
def Obligations.KeyEventsSetAndClearOneKey : Prop :=
  ∀ (s : State) (k : Byte),
    (k.toNat < 16 → ∃ t u, applyEvent (.keyPress k) s = (t, .result .ok) ∧ applyEvent (.keyRelease k) s = (u, .result .ok) ∧
      (∀ j : Fin 16, t.key j = (if j.val = k.toNat then true else s.key j)) ∧
      (∀ j : Fin 16, u.key j = (if j.val = k.toNat then false else s.key j)) ∧
      t = s.setKeys t.keys ∧ u = s.setKeys u.keys) ∧
    (15 < k.toNat → applyEvent (.keyPress k) s = (s, .result (.error .invalidKeyIndex)) ∧
      applyEvent (.keyRelease k) s = (s, .result (.error .invalidKeyIndex)))

/-- R190 (that bytes outside the image keep their values is the spec's inference): an image of at most 3584 bytes is copied to
0x200 and on, nothing else changes; a larger one is LoadTooLarge and changes nothing. -/
def Obligations.LoadCopiesWholeImageOrNothing : Prop :=
  ∀ (s : State) (image : List Byte),
    (image.length ≤ 3584 → ∃ t, applyEvent (.load image) s = (t, .result .ok) ∧
      (∀ k (h : k < image.length), t.byte (0x200 + k) = image[k]) ∧
      MemKeptOutside 0x200 image.length s t ∧ t = s.setMem t.mem) ∧
    (3584 < image.length → applyEvent (.load image) s = (s, .result (.error .loadTooLarge)))

/-- R192, R195 (that the read clears DC is the spec's decision D17; the error of the register view D27; log entry 16):
`display_read` hands out the cells and the old DC and clears DC alone; the debug views (one register, all registers, I, PC, the
stack with SP, memory) hand out what they name and change nothing. -/
def Obligations.ReadOutsReportTheState : Prop :=
  ∀ (s : State) (r : Reg) (k : Nat),
    applyEvent .displayRead s = (s.setDc false, .display s.disp s.dc) ∧
    applyEvent (.debugReg r.val) s = (s, .reg (s.reg r)) ∧
    (15 < k → applyEvent (.debugReg k) s = (s, .result (.error .invalidRegisterIndex))) ∧
    applyEvent .debugRegs s = (s, .regs s.v) ∧
    applyEvent .debugI s = (s, .word s.i) ∧
    applyEvent .debugPc s = (s, .word s.pc) ∧
    applyEvent .debugStack s = (s, .stack s.stack s.sp) ∧
    ∃ bytes, applyEvent .debugMem s = (s, .memory bytes) ∧ bytes.length = 4096 ∧
      ∀ a (h : a < bytes.length), bytes[a] = s.byte a

/-- R225, R28 (but for PC, the font, SP and W the values are the spec's decisions D13, D14, log entries 6 and 7; that the
model's draw counter is kept is log entry 4): the state after the reset event, whatever it was before. FONT_ROM is whatever
80 bytes the machine was built with (R6; log entry 5). -/
def Obligations.ResetEventGivesTheResetState : Prop :=
  ∀ s : State, let t := (applyEvent .reset s).1
    t.pc = 0x200#16 ∧ t.i = 0#16 ∧ t.sp.val = 0 ∧ t.ir = 0#16 ∧ t.wait = .idle ∧ t.dc = false ∧
    (∀ r : Reg, t.reg r = 0#8) ∧ (∀ j : Fin 16, t.stack[j] = 0#16) ∧ t.dt = 0#8 ∧ t.st = 0#8 ∧
    (∀ k : Fin 16, t.key k = false) ∧ (∀ cx cy, cx < 64 → cy < 32 → displayCell t.disp cx cy = false) ∧
    (∀ a (h : a < 80), t.byte a = s.font[a]) ∧ (∀ a, 80 ≤ a → t.byte a = 0#8) ∧ t.font = s.font ∧ t.draws = s.draws

/-! ### The whole machine -/

/-- 10_state.md R29, R28: the invariant holds after reset, whatever the font. Its clause of canonical memory is THE MODEL'S OWN
representation (log entry 18, DESIGN CHOICE); its clauses of PC and of the stack are R29's. -/
def Obligations.ResetMeetsTheInvariant : Prop := Inv State.reset ∧ ∀ f : Config.Font, Inv (State.resetWith f)

/-- R29, R15: every step keeps the invariant: PC ≤ 0x10FE and every valid stack entry ≤ 0x1000 (R29), and memory canonical,
which is THE MODEL'S OWN representation (log entry 18, DESIGN CHOICE). -/
def Obligations.EveryStepKeepsTheInvariant : Prop :=
  ∀ s t : State, Inv s → step s = .next t → Inv t

/-- R29, R82: every sequence of events of any agents, in any order, keeps the invariant. Its clause of canonical memory is THE
MODEL'S OWN representation (log entry 18, DESIGN CHOICE); that a run of the block is a list of events in any order is the
spec's decision D18 (log entry 14). -/
def Obligations.EveryEventSequenceKeepsTheInvariant : Prop :=
  ∀ (es : List Event) (s : State), Inv s → Inv (runEvents es s)

/-- R11, R12: an instruction writes no V register but its destinations: VX, V0 to VX for FX65, and VF for the six flag
writers; in particular VF is left alone by every other instruction unless X = F names it. -/
def Obligations.RegistersChangeOnlyAsNamed : Prop :=
  ∀ (i : Instr) (s t : State), exec i s = .next t → RegsKeptBut (destRegs i) s t

/-- R11, R13, R15 to R20, R22 to R24: what each instruction family alone may change. PC is compared with the post-fetch PC,
and V by `destRegs`. The draw counter and the font are THE MODEL'S OWN fields (log entries 4 and 5). -/
def Obligations.EachStateHasItsOwnWriters : Prop :=
  ∀ (i : Instr) (s t : State), exec i s = .next t →
    t.keys = s.keys ∧ t.ir = s.ir ∧ t.font = s.font ∧
    (t.v ≠ s.v → destRegs i ≠ []) ∧
    (t.i ≠ s.i → (∃ nnn, i = .ldI nnn) ∨ ∃ x, i = .addI x ∨ i = .ldF x ∨ i = .stRegs x ∨ i = .ldRegs x) ∧
    (t.pc ≠ s.pc → i = .ret ∨ (∃ nnn, i = .jp nnn ∨ i = .call nnn ∨ i = .jpV0 nnn) ∨
      (∃ x nn, i = .seByte x nn ∨ i = .sneByte x nn) ∨ (∃ x y, i = .seReg x y ∨ i = .sneReg x y) ∨
      ∃ x, i = .skp x ∨ i = .sknp x ∨ i = .ldVxK x) ∧
    (¬ StackKept s t → (∃ nnn, i = .call nnn) ∨ i = .ret) ∧
    (t.dt ≠ s.dt → ∃ x, i = .ldDtVx x) ∧ (t.st ≠ s.st → ∃ x, i = .ldStVx x) ∧
    (t.wait ≠ s.wait → ∃ x, i = .ldVxK x) ∧
    (t.mem ≠ s.mem → (∃ x, i = .ldB x) ∨ (∃ x, i = .stRegs x)) ∧
    (¬ DisplayKept s t → i = .cls ∨ ∃ x y n, i = .drw x y n) ∧
    (t.draws ≠ s.draws → ∃ x nn, i = .rnd x nn)

/-- R88: a step sets DC exactly when it completed 00E0 or DXYN with result Ok, and never clears or sets it otherwise. -/
def Obligations.DisplayChangedFlagFollowsDrawing : Prop :=
  ∀ s t : State, step s = .next t →
    (t.dc = true ↔ s.dc = true ∨ (t.result = .ok ∧
      (decodeWord t.ir = .ok .cls ∨ ∃ x y n, decodeWord t.ir = .ok (.drw x y n))))

/-- R97 (the convention for the end of a run, the spec's decision D24, log entry 19): at a jump to its own address a step changes no state
of the machine but IR. -/
def Obligations.SelfJumpChangesOnlyIr : Prop :=
  ∀ (s : State) (nnn : Addr12), s.pc.toNat = nnn.toNat → s.pc.toNat ≤ 0xFFE →
    opcodeAt s s.pc.toNat = formatA 0x1#4 nnn →
    step s = .next ((s.setIr (formatA 0x1#4 nnn)).setResult .ok)

/-- The model's own field `result` is an output: no step reads it (R25; log entry 2). -/
def Obligations.ResultIsNeverRead : Prop :=
  ∀ (s : State) (r : Result), step (s.setResult r) = step s

/-- R133, R27: a step that is not a CXNN is the same whatever random byte comes next, and consumes none (log entry 4). -/
def Obligations.OnlyRandomInstructionSeesTheDraw : Prop :=
  ∀ (i : Instr) (s t : State) (n : Nat), (∀ x nn, i ≠ .rnd x nn) → exec i s = .next t →
    exec i (s.setDraws n) = .next (t.setDraws n)

/-- R6, R21, R28 (FONT_ROM is open by the spec's decision D22, and its place in `State.font` is the model's, log entry 5; the
zeros above are D14, log entry 7): any 80 bytes can be the font. The machine built with `f` reads `f` at 0x000 to 0x04F and 0
above after reset, and no event of any agent changes which font it was built with. -/
def Obligations.FontIsAParameterOfTheMachine : Prop :=
  (∀ (f : Config.Font) (a : Nat), (h : a < 80) → (State.resetWith f).byte a = f[a]) ∧
  (∀ (f : Config.Font) (a : Nat), 80 ≤ a → (State.resetWith f).byte a = 0#8) ∧
  ∀ (es : List Event) (s : State), (runEvents es s).font = s.font

/-! ### The end of a run (40_fetch_decode_execute.md R97; the convention is the spec's decision D24, log entry 19) -/

/-- R97: a run has ended exactly at a PC of at most 0xFFE whose two bytes decode to a jump to that PC. -/
def Obligations.RunEndsAtASelfJump : Prop :=
  ∀ s : State, runEnded s = true ↔
    s.pc.toNat ≤ 0xFFE ∧ ∃ nnn, decodeWord (opcodeAt s s.pc.toNat) = .ok (.jp nnn) ∧ nnn.toNat = s.pc.toNat

/-- R97: from the end of a run on no step changes any state but IR (and the model's `result`, log entry 2). Ticks, key events
and the host's reads still come: whatever events but `reset` and `load` follow, in any order, the run stays ended, and V, I, PC,
the stack, memory, the cells and W are what they were. -/
def Obligations.EndedRunStaysEnded : Prop :=
  ∀ s : State, runEnded s = true →
    (∀ n, runEvents (List.replicate (n + 1) .step) s = (s.setIr (opcodeAt s s.pc.toNat)).setResult .ok) ∧
    ∀ es : List Event, (∀ e ∈ es, e ≠ .reset ∧ ∀ image, e ≠ .load image) →
      let t := runEvents es s
      runEnded t = true ∧ t.v = s.v ∧ t.i = s.i ∧ t.pc = s.pc ∧ StackKept s t ∧ MemKept s t ∧ t.disp = s.disp ∧
        t.wait = s.wait

/-- R97: `runToEnd n` is a run of k ≤ n step events, none of them from a state at which the run had ended, and it stops short of
n only where the run has ended. -/
def Obligations.RunToEndStopsAtTheFirstEnd : Prop :=
  ∀ (n : Nat) (s : State), ∃ k, k ≤ n ∧ runToEnd n s = runEvents (List.replicate k .step) s ∧
    (∀ j, j < k → runEnded (runEvents (List.replicate j .step) s) = false) ∧
    (k < n → runEnded (runToEnd n s) = true)
end

