-- ==== Sys2Proof/Laws/Memory.lean ====
section
/-! SUPPORT. The laws of memory: a read after a write, runs of bytes, the canonical form kept by every operation, and equal
memories being equal lists. -/

namespace Sys2Proof.Machine

variable {f : Config.Font}

/-! ### One byte -/

@[simp] theorem memRead_nil (a : Nat) : memRead f [] a = resetByte f a := rfl

theorem memRead_cons (b : Nat) (w : Byte) (m : Memory) (a : Nat) :
    memRead f ((b, w) :: m) a = if a = b then w else memRead f m a := rfl

theorem memRead_memErase (m : Memory) (a c : Nat) :
    memRead f (memErase m a) c = if c = a then resetByte f c else memRead f m c := by
  induction m with
  | nil => simp [memErase]
  | cons p m ih =>
    obtain ⟨b, w⟩ := p
    by_cases h : b = a
    · have : memErase ((b, w) :: m) a = memErase m a := by simp [memErase, h]
      rw [this, ih, memRead_cons]; split
      · rfl
      · rw [if_neg (by omega)]
    · have : memErase ((b, w) :: m) a = (b, w) :: memErase m a := by simp [memErase, h]
      rw [this, memRead_cons, ih, memRead_cons]
      by_cases hb : c = b
      · rw [if_pos hb, if_neg (by omega), if_pos hb]
      · rw [if_neg hb, if_neg hb]

theorem memRead_memInsert (m : Memory) (a : Nat) (v : Byte) (c : Nat) (h : ∀ p ∈ m, p.1 ≠ a) :
    memRead f (memInsert m a v) c = if c = a then v else memRead f m c := by
  induction m with
  | nil => simp [memInsert, memRead_cons]
  | cons p m ih =>
    obtain ⟨b, w⟩ := p
    have hb : b ≠ a := h (b, w) (by simp)
    rw [memInsert]; split
    · rw [memRead_cons]
    · rw [memRead_cons, memRead_cons, ih (fun p hp => h p (by simp [hp]))]
      by_cases hc : c = b
      · rw [if_pos hc, if_neg (by omega), if_pos hc]
      · rw [if_neg hc, if_neg hc]

theorem memErase_ne (m : Memory) (a : Nat) : ∀ p ∈ memErase m a, p.1 ≠ a := by
  intro p hp; simpa using (List.mem_filter.mp hp).2

/-- A read after a write: the value written at its address, every other address as before. -/
theorem memRead_memWrite (m : Memory) (a : Nat) (v : Byte) (c : Nat) :
    memRead f (memWrite f m a v) c = if c = a then v else memRead f m c := by
  unfold memWrite; split
  · next h => rw [memRead_memErase]; split
              · next hc => rw [hc, h]
              · rfl
  · rw [memRead_memInsert _ _ _ _ (memErase_ne m a), memRead_memErase]
    by_cases hc : c = a <;> simp [hc]

@[simp] theorem memRead_memWrite_same (m : Memory) (a : Nat) (v : Byte) : memRead f (memWrite f m a v) a = v := by
  simp [memRead_memWrite]

theorem memRead_memWrite_ne (m : Memory) {a c : Nat} (v : Byte) (h : c ≠ a) :
    memRead f (memWrite f m a v) c = memRead f m c := by simp [memRead_memWrite, h]

/-! ### Runs of bytes -/

/-- A read after a run of writes: the k-th value at `a + k`, every address outside the run as before. -/
theorem memRead_memWriteBytes (m : Memory) (a : Nat) (vs : List Byte) (c : Nat) :
    memRead f (memWriteBytes f m a vs) c =
      if h : a ≤ c ∧ c - a < vs.length then vs[c - a]'h.2 else memRead f m c := by
  induction vs generalizing m a with
  | nil => simp [memWriteBytes]
  | cons v vs ih =>
    rw [memWriteBytes, ih]
    by_cases hc : c = a
    · subst hc
      rw [dif_neg (by omega), dif_pos (by simp)]; simp
    · by_cases hin : a + 1 ≤ c ∧ c - (a + 1) < vs.length
      · rw [dif_pos hin, dif_pos (by simp only [List.length_cons]; omega)]
        simp only [show c - a = (c - (a + 1)) + 1 by omega, List.getElem_cons_succ]
      · rw [dif_neg hin, dif_neg (by simp only [List.length_cons]; omega), memRead_memWrite_ne _ _ hc]

/-- Outside the run nothing changes. -/
theorem memRead_memWriteBytes_outside (m : Memory) (a : Nat) (vs : List Byte) (c : Nat)
    (h : c < a ∨ a + vs.length ≤ c) : memRead f (memWriteBytes f m a vs) c = memRead f m c := by
  rw [memRead_memWriteBytes, dif_neg (by omega)]

/-- Inside the run the bytes are those written. -/
theorem memRead_memWriteBytes_inside (m : Memory) (a : Nat) (vs : List Byte) (k : Nat) (h : k < vs.length) :
    memRead f (memWriteBytes f m a vs) (a + k) = vs[k] := by
  rw [memRead_memWriteBytes, dif_pos (by omega)]; simp

@[simp] theorem length_memReadBytes (m : Memory) (a n : Nat) : (memReadBytes f m a n).length = n := by
  induction n generalizing a with
  | zero => rfl
  | succ n ih => simp [memReadBytes, ih]

@[simp] theorem getElem_memReadBytes (m : Memory) (a n k : Nat) (h : k < (memReadBytes f m a n).length) :
    (memReadBytes f m a n)[k] = memRead f m (a + k) := by
  induction n generalizing a k with
  | zero => simp [memReadBytes] at h
  | succ n ih =>
    cases k with
    | zero => rfl
    | succ k => simp only [memReadBytes, List.getElem_cons_succ, ih]; congr 1; omega

/-- Reading back a run just written gives the run. -/
theorem memReadBytes_memWriteBytes (m : Memory) (a : Nat) (vs : List Byte) :
    memReadBytes f (memWriteBytes f m a vs) a vs.length = vs := by
  apply List.ext_getElem (by simp)
  intro k h1 h2
  rw [getElem_memReadBytes, memRead_memWriteBytes_inside _ _ _ _ h2]

/-! ### The canonical form -/

theorem memWf_nil : memWf f [] := by simp [memWf]

theorem memErase_wf {m : Memory} (h : memWf f m) (a : Nat) : memWf f (memErase m a) :=
  ⟨h.1.filter _, fun p hp => h.2 p (List.mem_filter.mp hp).1⟩

theorem memInsert_mem {m : Memory} {a : Nat} {v : Byte} {p : Host.Cell} (h : p ∈ memInsert m a v) :
    p = (a, v) ∨ p ∈ m := by
  induction m with
  | nil => simpa [memInsert] using h
  | cons q m ih =>
    obtain ⟨b, w⟩ := q
    rw [memInsert] at h
    split at h
    · simpa using h
    · rcases List.mem_cons.mp h with h | h
      · right; simp [h]
      · rcases ih h with h | h
        · exact .inl h
        · right; simp [h]

theorem memInsert_wf {m : Memory} (h : memWf f m) {a : Nat} {v : Byte} (ha : a < Config.memSize) (hv : v ≠ resetByte f a)
    (hne : ∀ p ∈ m, p.1 ≠ a) : memWf f (memInsert m a v) := by
  refine ⟨?_, fun p hp => ?_⟩
  · have hs := h.1
    clear h
    induction m with
    | nil => simp [memInsert]
    | cons q m ih =>
      obtain ⟨b, w⟩ := q
      have hb : b ≠ a := hne (b, w) (by simp)
      obtain ⟨hq, hm⟩ := List.pairwise_cons.mp hs
      rw [memInsert]; split
      · next hlt =>
        refine List.pairwise_cons.mpr ⟨fun p hp => ?_, hs⟩
        rcases List.mem_cons.mp hp with rfl | hp
        · exact hlt
        · exact Nat.lt_trans hlt (hq p hp)
      · next hlt =>
        refine List.pairwise_cons.mpr ⟨fun p hp => ?_, ih (fun p hp => hne p (by simp [hp])) hm⟩
        rcases memInsert_mem hp with rfl | hp
        · show b < a; omega
        · exact hq p hp
  · rcases memInsert_mem hp with rfl | hp
    · exact ⟨ha, hv⟩
    · exact h.2 p hp

/-- A write inside memory keeps the canonical form. -/
theorem memWrite_wf {m : Memory} (h : memWf f m) {a : Nat} (v : Byte) (ha : a < Config.memSize) :
    memWf f (memWrite f m a v) := by
  unfold memWrite; split
  · exact memErase_wf h a
  · next hv => exact memInsert_wf (memErase_wf h a) ha hv (memErase_ne m a)

/-- A run of writes inside memory keeps the canonical form. -/
theorem memWriteBytes_wf {m : Memory} (h : memWf f m) {a : Nat} (vs : List Byte) (ha : a + vs.length ≤ Config.memSize) :
    memWf f (memWriteBytes f m a vs) := by
  induction vs generalizing m a with
  | nil => exact h
  | cons v vs ih =>
    simp only [List.length_cons] at ha
    exact ih (memWrite_wf h v (by omega)) (by omega)

/-- An address below every listed one reads as the reset contents. -/
theorem memRead_of_lt {m : Memory} {a : Nat} (h : ∀ p ∈ m, a < p.1) : memRead f m a = resetByte f a := by
  induction m with
  | nil => rfl
  | cons q m ih =>
    obtain ⟨b, w⟩ := q
    have : a < b := h (b, w) (by simp)
    rw [memRead_cons, if_neg (by omega)]
    exact ih (fun p hp => h p (by simp [hp]))

end Sys2Proof.Machine
end

