-- ==== Sys2Proof/Laws/State.lean ====
section
/-! SUPPORT. What each one-field update leaves in each field (all by `rfl`), and the register file's read after write. -/

namespace Sys2Proof.Machine.State

section
variable (s : State) (a : Vector Byte 16)
@[simp] theorem setV_v : (s.setV a).v = a := rfl
@[simp] theorem setV_i : (s.setV a).i = s.i := rfl
@[simp] theorem setV_pc : (s.setV a).pc = s.pc := rfl
@[simp] theorem setV_stack : (s.setV a).stack = s.stack := rfl
@[simp] theorem setV_sp : (s.setV a).sp = s.sp := rfl
@[simp] theorem setV_dt : (s.setV a).dt = s.dt := rfl
@[simp] theorem setV_st : (s.setV a).st = s.st := rfl
@[simp] theorem setV_ir : (s.setV a).ir = s.ir := rfl
@[simp] theorem setV_wait : (s.setV a).wait = s.wait := rfl
@[simp] theorem setV_keys : (s.setV a).keys = s.keys := rfl
@[simp] theorem setV_mem : (s.setV a).mem = s.mem := rfl
@[simp] theorem setV_disp : (s.setV a).disp = s.disp := rfl
@[simp] theorem setV_dc : (s.setV a).dc = s.dc := rfl
@[simp] theorem setV_font : (s.setV a).font = s.font := rfl
@[simp] theorem setV_draws : (s.setV a).draws = s.draws := rfl
@[simp] theorem setV_result : (s.setV a).result = s.result := rfl
end

section
variable (s : State) (a : Word)
@[simp] theorem setI_v : (s.setI a).v = s.v := rfl
@[simp] theorem setI_i : (s.setI a).i = a := rfl
@[simp] theorem setI_pc : (s.setI a).pc = s.pc := rfl
@[simp] theorem setI_stack : (s.setI a).stack = s.stack := rfl
@[simp] theorem setI_sp : (s.setI a).sp = s.sp := rfl
@[simp] theorem setI_dt : (s.setI a).dt = s.dt := rfl
@[simp] theorem setI_st : (s.setI a).st = s.st := rfl
@[simp] theorem setI_ir : (s.setI a).ir = s.ir := rfl
@[simp] theorem setI_wait : (s.setI a).wait = s.wait := rfl
@[simp] theorem setI_keys : (s.setI a).keys = s.keys := rfl
@[simp] theorem setI_mem : (s.setI a).mem = s.mem := rfl
@[simp] theorem setI_disp : (s.setI a).disp = s.disp := rfl
@[simp] theorem setI_dc : (s.setI a).dc = s.dc := rfl
@[simp] theorem setI_font : (s.setI a).font = s.font := rfl
@[simp] theorem setI_draws : (s.setI a).draws = s.draws := rfl
@[simp] theorem setI_result : (s.setI a).result = s.result := rfl
end

section
variable (s : State) (a : Word)
@[simp] theorem setPc_v : (s.setPc a).v = s.v := rfl
@[simp] theorem setPc_i : (s.setPc a).i = s.i := rfl
@[simp] theorem setPc_pc : (s.setPc a).pc = a := rfl
@[simp] theorem setPc_stack : (s.setPc a).stack = s.stack := rfl
@[simp] theorem setPc_sp : (s.setPc a).sp = s.sp := rfl
@[simp] theorem setPc_dt : (s.setPc a).dt = s.dt := rfl
@[simp] theorem setPc_st : (s.setPc a).st = s.st := rfl
@[simp] theorem setPc_ir : (s.setPc a).ir = s.ir := rfl
@[simp] theorem setPc_wait : (s.setPc a).wait = s.wait := rfl
@[simp] theorem setPc_keys : (s.setPc a).keys = s.keys := rfl
@[simp] theorem setPc_mem : (s.setPc a).mem = s.mem := rfl
@[simp] theorem setPc_disp : (s.setPc a).disp = s.disp := rfl
@[simp] theorem setPc_dc : (s.setPc a).dc = s.dc := rfl
@[simp] theorem setPc_font : (s.setPc a).font = s.font := rfl
@[simp] theorem setPc_draws : (s.setPc a).draws = s.draws := rfl
@[simp] theorem setPc_result : (s.setPc a).result = s.result := rfl
end

section
variable (s : State) (a : Vector Word 16)
@[simp] theorem setStack_v : (s.setStack a).v = s.v := rfl
@[simp] theorem setStack_i : (s.setStack a).i = s.i := rfl
@[simp] theorem setStack_pc : (s.setStack a).pc = s.pc := rfl
@[simp] theorem setStack_stack : (s.setStack a).stack = a := rfl
@[simp] theorem setStack_sp : (s.setStack a).sp = s.sp := rfl
@[simp] theorem setStack_dt : (s.setStack a).dt = s.dt := rfl
@[simp] theorem setStack_st : (s.setStack a).st = s.st := rfl
@[simp] theorem setStack_ir : (s.setStack a).ir = s.ir := rfl
@[simp] theorem setStack_wait : (s.setStack a).wait = s.wait := rfl
@[simp] theorem setStack_keys : (s.setStack a).keys = s.keys := rfl
@[simp] theorem setStack_mem : (s.setStack a).mem = s.mem := rfl
@[simp] theorem setStack_disp : (s.setStack a).disp = s.disp := rfl
@[simp] theorem setStack_dc : (s.setStack a).dc = s.dc := rfl
@[simp] theorem setStack_font : (s.setStack a).font = s.font := rfl
@[simp] theorem setStack_draws : (s.setStack a).draws = s.draws := rfl
@[simp] theorem setStack_result : (s.setStack a).result = s.result := rfl
end

section
variable (s : State) (a : Fin 17)
@[simp] theorem setSp_v : (s.setSp a).v = s.v := rfl
@[simp] theorem setSp_i : (s.setSp a).i = s.i := rfl
@[simp] theorem setSp_pc : (s.setSp a).pc = s.pc := rfl
@[simp] theorem setSp_stack : (s.setSp a).stack = s.stack := rfl
@[simp] theorem setSp_sp : (s.setSp a).sp = a := rfl
@[simp] theorem setSp_dt : (s.setSp a).dt = s.dt := rfl
@[simp] theorem setSp_st : (s.setSp a).st = s.st := rfl
@[simp] theorem setSp_ir : (s.setSp a).ir = s.ir := rfl
@[simp] theorem setSp_wait : (s.setSp a).wait = s.wait := rfl
@[simp] theorem setSp_keys : (s.setSp a).keys = s.keys := rfl
@[simp] theorem setSp_mem : (s.setSp a).mem = s.mem := rfl
@[simp] theorem setSp_disp : (s.setSp a).disp = s.disp := rfl
@[simp] theorem setSp_dc : (s.setSp a).dc = s.dc := rfl
@[simp] theorem setSp_font : (s.setSp a).font = s.font := rfl
@[simp] theorem setSp_draws : (s.setSp a).draws = s.draws := rfl
@[simp] theorem setSp_result : (s.setSp a).result = s.result := rfl
end

section
variable (s : State) (a : Byte)
@[simp] theorem setDt_v : (s.setDt a).v = s.v := rfl
@[simp] theorem setDt_i : (s.setDt a).i = s.i := rfl
@[simp] theorem setDt_pc : (s.setDt a).pc = s.pc := rfl
@[simp] theorem setDt_stack : (s.setDt a).stack = s.stack := rfl
@[simp] theorem setDt_sp : (s.setDt a).sp = s.sp := rfl
@[simp] theorem setDt_dt : (s.setDt a).dt = a := rfl
@[simp] theorem setDt_st : (s.setDt a).st = s.st := rfl
@[simp] theorem setDt_ir : (s.setDt a).ir = s.ir := rfl
@[simp] theorem setDt_wait : (s.setDt a).wait = s.wait := rfl
@[simp] theorem setDt_keys : (s.setDt a).keys = s.keys := rfl
@[simp] theorem setDt_mem : (s.setDt a).mem = s.mem := rfl
@[simp] theorem setDt_disp : (s.setDt a).disp = s.disp := rfl
@[simp] theorem setDt_dc : (s.setDt a).dc = s.dc := rfl
@[simp] theorem setDt_font : (s.setDt a).font = s.font := rfl
@[simp] theorem setDt_draws : (s.setDt a).draws = s.draws := rfl
@[simp] theorem setDt_result : (s.setDt a).result = s.result := rfl
end

section
variable (s : State) (a : Byte)
@[simp] theorem setSt_v : (s.setSt a).v = s.v := rfl
@[simp] theorem setSt_i : (s.setSt a).i = s.i := rfl
@[simp] theorem setSt_pc : (s.setSt a).pc = s.pc := rfl
@[simp] theorem setSt_stack : (s.setSt a).stack = s.stack := rfl
@[simp] theorem setSt_sp : (s.setSt a).sp = s.sp := rfl
@[simp] theorem setSt_dt : (s.setSt a).dt = s.dt := rfl
@[simp] theorem setSt_st : (s.setSt a).st = a := rfl
@[simp] theorem setSt_ir : (s.setSt a).ir = s.ir := rfl
@[simp] theorem setSt_wait : (s.setSt a).wait = s.wait := rfl
@[simp] theorem setSt_keys : (s.setSt a).keys = s.keys := rfl
@[simp] theorem setSt_mem : (s.setSt a).mem = s.mem := rfl
@[simp] theorem setSt_disp : (s.setSt a).disp = s.disp := rfl
@[simp] theorem setSt_dc : (s.setSt a).dc = s.dc := rfl
@[simp] theorem setSt_font : (s.setSt a).font = s.font := rfl
@[simp] theorem setSt_draws : (s.setSt a).draws = s.draws := rfl
@[simp] theorem setSt_result : (s.setSt a).result = s.result := rfl
end

section
variable (s : State) (a : Word)
@[simp] theorem setIr_v : (s.setIr a).v = s.v := rfl
@[simp] theorem setIr_i : (s.setIr a).i = s.i := rfl
@[simp] theorem setIr_pc : (s.setIr a).pc = s.pc := rfl
@[simp] theorem setIr_stack : (s.setIr a).stack = s.stack := rfl
@[simp] theorem setIr_sp : (s.setIr a).sp = s.sp := rfl
@[simp] theorem setIr_dt : (s.setIr a).dt = s.dt := rfl
@[simp] theorem setIr_st : (s.setIr a).st = s.st := rfl
@[simp] theorem setIr_ir : (s.setIr a).ir = a := rfl
@[simp] theorem setIr_wait : (s.setIr a).wait = s.wait := rfl
@[simp] theorem setIr_keys : (s.setIr a).keys = s.keys := rfl
@[simp] theorem setIr_mem : (s.setIr a).mem = s.mem := rfl
@[simp] theorem setIr_disp : (s.setIr a).disp = s.disp := rfl
@[simp] theorem setIr_dc : (s.setIr a).dc = s.dc := rfl
@[simp] theorem setIr_font : (s.setIr a).font = s.font := rfl
@[simp] theorem setIr_draws : (s.setIr a).draws = s.draws := rfl
@[simp] theorem setIr_result : (s.setIr a).result = s.result := rfl
end

section
variable (s : State) (a : WaitLatch)
@[simp] theorem setWait_v : (s.setWait a).v = s.v := rfl
@[simp] theorem setWait_i : (s.setWait a).i = s.i := rfl
@[simp] theorem setWait_pc : (s.setWait a).pc = s.pc := rfl
@[simp] theorem setWait_stack : (s.setWait a).stack = s.stack := rfl
@[simp] theorem setWait_sp : (s.setWait a).sp = s.sp := rfl
@[simp] theorem setWait_dt : (s.setWait a).dt = s.dt := rfl
@[simp] theorem setWait_st : (s.setWait a).st = s.st := rfl
@[simp] theorem setWait_ir : (s.setWait a).ir = s.ir := rfl
@[simp] theorem setWait_wait : (s.setWait a).wait = a := rfl
@[simp] theorem setWait_keys : (s.setWait a).keys = s.keys := rfl
@[simp] theorem setWait_mem : (s.setWait a).mem = s.mem := rfl
@[simp] theorem setWait_disp : (s.setWait a).disp = s.disp := rfl
@[simp] theorem setWait_dc : (s.setWait a).dc = s.dc := rfl
@[simp] theorem setWait_font : (s.setWait a).font = s.font := rfl
@[simp] theorem setWait_draws : (s.setWait a).draws = s.draws := rfl
@[simp] theorem setWait_result : (s.setWait a).result = s.result := rfl
end

section
variable (s : State) (a : Vector Bool 16)
@[simp] theorem setKeys_v : (s.setKeys a).v = s.v := rfl
@[simp] theorem setKeys_i : (s.setKeys a).i = s.i := rfl
@[simp] theorem setKeys_pc : (s.setKeys a).pc = s.pc := rfl
@[simp] theorem setKeys_stack : (s.setKeys a).stack = s.stack := rfl
@[simp] theorem setKeys_sp : (s.setKeys a).sp = s.sp := rfl
@[simp] theorem setKeys_dt : (s.setKeys a).dt = s.dt := rfl
@[simp] theorem setKeys_st : (s.setKeys a).st = s.st := rfl
@[simp] theorem setKeys_ir : (s.setKeys a).ir = s.ir := rfl
@[simp] theorem setKeys_wait : (s.setKeys a).wait = s.wait := rfl
@[simp] theorem setKeys_keys : (s.setKeys a).keys = a := rfl
@[simp] theorem setKeys_mem : (s.setKeys a).mem = s.mem := rfl
@[simp] theorem setKeys_disp : (s.setKeys a).disp = s.disp := rfl
@[simp] theorem setKeys_dc : (s.setKeys a).dc = s.dc := rfl
@[simp] theorem setKeys_font : (s.setKeys a).font = s.font := rfl
@[simp] theorem setKeys_draws : (s.setKeys a).draws = s.draws := rfl
@[simp] theorem setKeys_result : (s.setKeys a).result = s.result := rfl
end

section
variable (s : State) (a : Memory)
@[simp] theorem setMem_v : (s.setMem a).v = s.v := rfl
@[simp] theorem setMem_i : (s.setMem a).i = s.i := rfl
@[simp] theorem setMem_pc : (s.setMem a).pc = s.pc := rfl
@[simp] theorem setMem_stack : (s.setMem a).stack = s.stack := rfl
@[simp] theorem setMem_sp : (s.setMem a).sp = s.sp := rfl
@[simp] theorem setMem_dt : (s.setMem a).dt = s.dt := rfl
@[simp] theorem setMem_st : (s.setMem a).st = s.st := rfl
@[simp] theorem setMem_ir : (s.setMem a).ir = s.ir := rfl
@[simp] theorem setMem_wait : (s.setMem a).wait = s.wait := rfl
@[simp] theorem setMem_keys : (s.setMem a).keys = s.keys := rfl
@[simp] theorem setMem_mem : (s.setMem a).mem = a := rfl
@[simp] theorem setMem_disp : (s.setMem a).disp = s.disp := rfl
@[simp] theorem setMem_dc : (s.setMem a).dc = s.dc := rfl
@[simp] theorem setMem_font : (s.setMem a).font = s.font := rfl
@[simp] theorem setMem_draws : (s.setMem a).draws = s.draws := rfl
@[simp] theorem setMem_result : (s.setMem a).result = s.result := rfl
end

section
variable (s : State) (a : Display)
@[simp] theorem setDisp_v : (s.setDisp a).v = s.v := rfl
@[simp] theorem setDisp_i : (s.setDisp a).i = s.i := rfl
@[simp] theorem setDisp_pc : (s.setDisp a).pc = s.pc := rfl
@[simp] theorem setDisp_stack : (s.setDisp a).stack = s.stack := rfl
@[simp] theorem setDisp_sp : (s.setDisp a).sp = s.sp := rfl
@[simp] theorem setDisp_dt : (s.setDisp a).dt = s.dt := rfl
@[simp] theorem setDisp_st : (s.setDisp a).st = s.st := rfl
@[simp] theorem setDisp_ir : (s.setDisp a).ir = s.ir := rfl
@[simp] theorem setDisp_wait : (s.setDisp a).wait = s.wait := rfl
@[simp] theorem setDisp_keys : (s.setDisp a).keys = s.keys := rfl
@[simp] theorem setDisp_mem : (s.setDisp a).mem = s.mem := rfl
@[simp] theorem setDisp_disp : (s.setDisp a).disp = a := rfl
@[simp] theorem setDisp_dc : (s.setDisp a).dc = s.dc := rfl
@[simp] theorem setDisp_font : (s.setDisp a).font = s.font := rfl
@[simp] theorem setDisp_draws : (s.setDisp a).draws = s.draws := rfl
@[simp] theorem setDisp_result : (s.setDisp a).result = s.result := rfl
end

section
variable (s : State) (a : Bool)
@[simp] theorem setDc_v : (s.setDc a).v = s.v := rfl
@[simp] theorem setDc_i : (s.setDc a).i = s.i := rfl
@[simp] theorem setDc_pc : (s.setDc a).pc = s.pc := rfl
@[simp] theorem setDc_stack : (s.setDc a).stack = s.stack := rfl
@[simp] theorem setDc_sp : (s.setDc a).sp = s.sp := rfl
@[simp] theorem setDc_dt : (s.setDc a).dt = s.dt := rfl
@[simp] theorem setDc_st : (s.setDc a).st = s.st := rfl
@[simp] theorem setDc_ir : (s.setDc a).ir = s.ir := rfl
@[simp] theorem setDc_wait : (s.setDc a).wait = s.wait := rfl
@[simp] theorem setDc_keys : (s.setDc a).keys = s.keys := rfl
@[simp] theorem setDc_mem : (s.setDc a).mem = s.mem := rfl
@[simp] theorem setDc_disp : (s.setDc a).disp = s.disp := rfl
@[simp] theorem setDc_dc : (s.setDc a).dc = a := rfl
@[simp] theorem setDc_font : (s.setDc a).font = s.font := rfl
@[simp] theorem setDc_draws : (s.setDc a).draws = s.draws := rfl
@[simp] theorem setDc_result : (s.setDc a).result = s.result := rfl
end

section
variable (s : State) (a : Nat)
@[simp] theorem setDraws_v : (s.setDraws a).v = s.v := rfl
@[simp] theorem setDraws_i : (s.setDraws a).i = s.i := rfl
@[simp] theorem setDraws_pc : (s.setDraws a).pc = s.pc := rfl
@[simp] theorem setDraws_stack : (s.setDraws a).stack = s.stack := rfl
@[simp] theorem setDraws_sp : (s.setDraws a).sp = s.sp := rfl
@[simp] theorem setDraws_dt : (s.setDraws a).dt = s.dt := rfl
@[simp] theorem setDraws_st : (s.setDraws a).st = s.st := rfl
@[simp] theorem setDraws_ir : (s.setDraws a).ir = s.ir := rfl
@[simp] theorem setDraws_wait : (s.setDraws a).wait = s.wait := rfl
@[simp] theorem setDraws_keys : (s.setDraws a).keys = s.keys := rfl
@[simp] theorem setDraws_mem : (s.setDraws a).mem = s.mem := rfl
@[simp] theorem setDraws_disp : (s.setDraws a).disp = s.disp := rfl
@[simp] theorem setDraws_dc : (s.setDraws a).dc = s.dc := rfl
@[simp] theorem setDraws_font : (s.setDraws a).font = s.font := rfl
@[simp] theorem setDraws_draws : (s.setDraws a).draws = a := rfl
@[simp] theorem setDraws_result : (s.setDraws a).result = s.result := rfl
end

section
variable (s : State) (a : Result)
@[simp] theorem setResult_v : (s.setResult a).v = s.v := rfl
@[simp] theorem setResult_i : (s.setResult a).i = s.i := rfl
@[simp] theorem setResult_pc : (s.setResult a).pc = s.pc := rfl
@[simp] theorem setResult_stack : (s.setResult a).stack = s.stack := rfl
@[simp] theorem setResult_sp : (s.setResult a).sp = s.sp := rfl
@[simp] theorem setResult_dt : (s.setResult a).dt = s.dt := rfl
@[simp] theorem setResult_st : (s.setResult a).st = s.st := rfl
@[simp] theorem setResult_ir : (s.setResult a).ir = s.ir := rfl
@[simp] theorem setResult_wait : (s.setResult a).wait = s.wait := rfl
@[simp] theorem setResult_keys : (s.setResult a).keys = s.keys := rfl
@[simp] theorem setResult_mem : (s.setResult a).mem = s.mem := rfl
@[simp] theorem setResult_disp : (s.setResult a).disp = s.disp := rfl
@[simp] theorem setResult_dc : (s.setResult a).dc = s.dc := rfl
@[simp] theorem setResult_font : (s.setResult a).font = s.font := rfl
@[simp] theorem setResult_draws : (s.setResult a).draws = s.draws := rfl
@[simp] theorem setResult_result : (s.setResult a).result = a := rfl
end

/-! ### One register -/

section
variable (s : State) (x : Reg) (b : Byte)

theorem setReg_v : (s.setReg x b).v = s.v.set x b := rfl
@[simp] theorem setReg_i : (s.setReg x b).i = s.i := rfl
@[simp] theorem setReg_pc : (s.setReg x b).pc = s.pc := rfl
@[simp] theorem setReg_stack : (s.setReg x b).stack = s.stack := rfl
@[simp] theorem setReg_sp : (s.setReg x b).sp = s.sp := rfl
@[simp] theorem setReg_dt : (s.setReg x b).dt = s.dt := rfl
@[simp] theorem setReg_st : (s.setReg x b).st = s.st := rfl
@[simp] theorem setReg_ir : (s.setReg x b).ir = s.ir := rfl
@[simp] theorem setReg_wait : (s.setReg x b).wait = s.wait := rfl
@[simp] theorem setReg_keys : (s.setReg x b).keys = s.keys := rfl
@[simp] theorem setReg_mem : (s.setReg x b).mem = s.mem := rfl
@[simp] theorem setReg_disp : (s.setReg x b).disp = s.disp := rfl
@[simp] theorem setReg_dc : (s.setReg x b).dc = s.dc := rfl
@[simp] theorem setReg_font : (s.setReg x b).font = s.font := rfl
@[simp] theorem setReg_draws : (s.setReg x b).draws = s.draws := rfl
@[simp] theorem setReg_result : (s.setReg x b).result = s.result := rfl
end

@[simp] theorem reg_setReg_same (s : State) (x : Reg) (b : Byte) : (s.setReg x b).reg x = b := by
  simp [reg, setReg]

theorem reg_setReg_ne (s : State) {x y : Reg} (b : Byte) (h : y ≠ x) : (s.setReg x b).reg y = s.reg y := by
  have : x.val ≠ y.val := fun e => h (Fin.ext e.symm)
  simp [reg, setReg, this]

/-- Reading any register after writing one. -/
theorem reg_setReg (s : State) (x y : Reg) (b : Byte) : (s.setReg x b).reg y = if y = x then b else s.reg y := by
  by_cases h : y = x
  · subst h; simp
  · simp [h, reg_setReg_ne]

@[simp] theorem reg_setI (s : State) (a : Word) (x : Reg) : (s.setI a).reg x = s.reg x := rfl
@[simp] theorem reg_setPc (s : State) (a : Word) (x : Reg) : (s.setPc a).reg x = s.reg x := rfl
@[simp] theorem reg_setStack (s : State) (a : Vector Word 16) (x : Reg) : (s.setStack a).reg x = s.reg x := rfl
@[simp] theorem reg_setSp (s : State) (a : Fin 17) (x : Reg) : (s.setSp a).reg x = s.reg x := rfl
@[simp] theorem reg_setDt (s : State) (a : Byte) (x : Reg) : (s.setDt a).reg x = s.reg x := rfl
@[simp] theorem reg_setSt (s : State) (a : Byte) (x : Reg) : (s.setSt a).reg x = s.reg x := rfl
@[simp] theorem reg_setIr (s : State) (a : Word) (x : Reg) : (s.setIr a).reg x = s.reg x := rfl
@[simp] theorem reg_setWait (s : State) (a : WaitLatch) (x : Reg) : (s.setWait a).reg x = s.reg x := rfl
@[simp] theorem reg_setKeys (s : State) (a : Vector Bool 16) (x : Reg) : (s.setKeys a).reg x = s.reg x := rfl
@[simp] theorem reg_setMem (s : State) (a : Memory) (x : Reg) : (s.setMem a).reg x = s.reg x := rfl
@[simp] theorem reg_setDisp (s : State) (a : Display) (x : Reg) : (s.setDisp a).reg x = s.reg x := rfl
@[simp] theorem reg_setDc (s : State) (a : Bool) (x : Reg) : (s.setDc a).reg x = s.reg x := rfl
@[simp] theorem reg_setDraws (s : State) (a : Nat) (x : Reg) : (s.setDraws a).reg x = s.reg x := rfl
@[simp] theorem reg_setResult (s : State) (a : Result) (x : Reg) : (s.setResult a).reg x = s.reg x := rfl
@[simp] theorem key_setV (s : State) (a : Vector Byte 16) (k : Fin 16) : (s.setV a).key k = s.key k := rfl
@[simp] theorem key_setI (s : State) (a : Word) (k : Fin 16) : (s.setI a).key k = s.key k := rfl
@[simp] theorem key_setPc (s : State) (a : Word) (k : Fin 16) : (s.setPc a).key k = s.key k := rfl
@[simp] theorem key_setStack (s : State) (a : Vector Word 16) (k : Fin 16) : (s.setStack a).key k = s.key k := rfl
@[simp] theorem key_setSp (s : State) (a : Fin 17) (k : Fin 16) : (s.setSp a).key k = s.key k := rfl
@[simp] theorem key_setDt (s : State) (a : Byte) (k : Fin 16) : (s.setDt a).key k = s.key k := rfl
@[simp] theorem key_setSt (s : State) (a : Byte) (k : Fin 16) : (s.setSt a).key k = s.key k := rfl
@[simp] theorem key_setIr (s : State) (a : Word) (k : Fin 16) : (s.setIr a).key k = s.key k := rfl
@[simp] theorem key_setWait (s : State) (a : WaitLatch) (k : Fin 16) : (s.setWait a).key k = s.key k := rfl
@[simp] theorem key_setMem (s : State) (a : Memory) (k : Fin 16) : (s.setMem a).key k = s.key k := rfl
@[simp] theorem key_setDisp (s : State) (a : Display) (k : Fin 16) : (s.setDisp a).key k = s.key k := rfl
@[simp] theorem key_setDc (s : State) (a : Bool) (k : Fin 16) : (s.setDc a).key k = s.key k := rfl
@[simp] theorem key_setDraws (s : State) (a : Nat) (k : Fin 16) : (s.setDraws a).key k = s.key k := rfl
@[simp] theorem key_setResult (s : State) (a : Result) (k : Fin 16) : (s.setResult a).key k = s.key k := rfl

/-! ### One byte of memory -/

@[simp] theorem byte_setV (s : State) (c : Vector Byte 16) (a : Nat) : (s.setV c).byte a = s.byte a := rfl
@[simp] theorem byte_setI (s : State) (c : Word) (a : Nat) : (s.setI c).byte a = s.byte a := rfl
@[simp] theorem byte_setPc (s : State) (c : Word) (a : Nat) : (s.setPc c).byte a = s.byte a := rfl
@[simp] theorem byte_setStack (s : State) (c : Vector Word 16) (a : Nat) : (s.setStack c).byte a = s.byte a := rfl
@[simp] theorem byte_setSp (s : State) (c : Fin 17) (a : Nat) : (s.setSp c).byte a = s.byte a := rfl
@[simp] theorem byte_setDt (s : State) (c : Byte) (a : Nat) : (s.setDt c).byte a = s.byte a := rfl
@[simp] theorem byte_setSt (s : State) (c : Byte) (a : Nat) : (s.setSt c).byte a = s.byte a := rfl
@[simp] theorem byte_setIr (s : State) (c : Word) (a : Nat) : (s.setIr c).byte a = s.byte a := rfl
@[simp] theorem byte_setWait (s : State) (c : WaitLatch) (a : Nat) : (s.setWait c).byte a = s.byte a := rfl
@[simp] theorem byte_setKeys (s : State) (c : Vector Bool 16) (a : Nat) : (s.setKeys c).byte a = s.byte a := rfl
@[simp] theorem byte_setDisp (s : State) (c : Display) (a : Nat) : (s.setDisp c).byte a = s.byte a := rfl
@[simp] theorem byte_setDc (s : State) (c : Bool) (a : Nat) : (s.setDc c).byte a = s.byte a := rfl
@[simp] theorem byte_setDraws (s : State) (c : Nat) (a : Nat) : (s.setDraws c).byte a = s.byte a := rfl
@[simp] theorem byte_setResult (s : State) (c : Result) (a : Nat) : (s.setResult c).byte a = s.byte a := rfl
@[simp] theorem byte_setReg (s : State) (x : Reg) (c : Byte) (a : Nat) : (s.setReg x c).byte a = s.byte a := rfl
@[simp] theorem byte_setMem (s : State) (m : Memory) (a : Nat) : (s.setMem m).byte a = memRead s.font m a := rfl

/-! ### A run of bytes stored: memory changes, and memory alone -/

section
variable (s : State) (a : Nat) (bs : List Byte)

@[simp] theorem writeBytes_v : (s.writeBytes a bs).v = s.v := rfl
@[simp] theorem writeBytes_i : (s.writeBytes a bs).i = s.i := rfl
@[simp] theorem writeBytes_pc : (s.writeBytes a bs).pc = s.pc := rfl
@[simp] theorem writeBytes_stack : (s.writeBytes a bs).stack = s.stack := rfl
@[simp] theorem writeBytes_sp : (s.writeBytes a bs).sp = s.sp := rfl
@[simp] theorem writeBytes_dt : (s.writeBytes a bs).dt = s.dt := rfl
@[simp] theorem writeBytes_st : (s.writeBytes a bs).st = s.st := rfl
@[simp] theorem writeBytes_ir : (s.writeBytes a bs).ir = s.ir := rfl
@[simp] theorem writeBytes_wait : (s.writeBytes a bs).wait = s.wait := rfl
@[simp] theorem writeBytes_keys : (s.writeBytes a bs).keys = s.keys := rfl
@[simp] theorem writeBytes_disp : (s.writeBytes a bs).disp = s.disp := rfl
@[simp] theorem writeBytes_dc : (s.writeBytes a bs).dc = s.dc := rfl
@[simp] theorem writeBytes_font : (s.writeBytes a bs).font = s.font := rfl
@[simp] theorem writeBytes_draws : (s.writeBytes a bs).draws = s.draws := rfl
@[simp] theorem writeBytes_result : (s.writeBytes a bs).result = s.result := rfl
@[simp] theorem reg_writeBytes (x : Reg) : (s.writeBytes a bs).reg x = s.reg x := rfl
@[simp] theorem key_writeBytes (k : Fin 16) : (s.writeBytes a bs).key k = s.key k := rfl
end

/-! ### PC -/

@[simp] theorem pcAdvance_eq (s : State) : s.pcAdvance = s.setPc (s.pc + 2#16) := rfl

@[simp] theorem pcRewind_eq (s : State) : s.pcRewind = s.setPc (s.pc - 2#16) := rfl

/-- A skip moves PC, and PC alone. -/
theorem skipIf_eq (s : State) (c : Bool) : s.skipIf c = s.setPc (if c then s.pc + 2#16 else s.pc) := by
  cases c <;> rfl

end Sys2Proof.Machine.State
end

