-- ==== Sys2Proof/Laws/Ops.lean ====
section
/-! SUPPORT. What each shared operation can do, said once: the ends of an instruction, the fetch, the stack, the register
operations of the flag writers, register runs, the access check, the keypad's two scans, and the step. -/

namespace Sys2Proof.Machine

/-! ### How an instruction ends -/

theorem complete_next {s t : State} : complete s = .next t ↔ t = s.setResult .ok := by
  simp [complete, eq_comm]

theorem retry_next {s t : State} : retry s = .next t ↔ t = (s.setPc (s.pc - 2#16)).setResult .retry := by
  simp [retry, eq_comm]

theorem raise_next {k : ErrorKind} {s t : State} : raise k s = .next t ↔ t = s.setResult (.error k) := by
  simp [raise, eq_comm]

/-! ### The fetch -/

theorem canFetch_iff (s : State) : canFetch s = true ↔ s.pc.toNat ≤ 0xFFE := by simp [canFetch]

/-- A fetch that succeeds: the opcode in IR, PC two further, nothing else. -/
theorem fetch_some {s s1 : State} :
    fetch s = some s1 ↔ s.pc.toNat ≤ 0xFFE ∧ s1 = (s.setIr (opcodeAt s s.pc.toNat)).setPc (s.pc + 2#16) := by
  unfold fetch; split
  · next h => rw [canFetch_iff] at h; simp [h, eq_comm, State.pcAdvance]
  · next h => rw [canFetch_iff] at h; simp [h]

theorem fetch_none {s : State} : fetch s = none ↔ 0xFFE < s.pc.toNat := by
  unfold fetch; split
  · next h => rw [canFetch_iff] at h; simp; omega
  · next h => rw [canFetch_iff] at h; simp; omega

/-! ### Memory of a state -/

/-- A byte after a run of bytes was stored: inside the run the byte stored. -/
theorem byte_writeBytes_inside (s : State) (a : Nat) (bs : List Byte) (k : Nat) (h : k < bs.length) :
    (s.writeBytes a bs).byte (a + k) = bs[k] := memRead_memWriteBytes_inside _ _ _ _ h

/-- Outside the run the byte there before. -/
theorem byte_writeBytes_outside (s : State) (a : Nat) (bs : List Byte) (b : Nat) (h : b < a ∨ a + bs.length ≤ b) :
    (s.writeBytes a bs).byte b = s.byte b := memRead_memWriteBytes_outside _ _ _ _ h

/-- A run of bytes stored inside memory keeps the canonical form. -/
theorem writeBytes_wf {s : State} (h : memWf s.font s.mem) {a : Nat} (bs : List Byte)
    (ha : a + bs.length ≤ Config.memSize) : memWf s.font (s.writeBytes a bs).mem := memWriteBytes_wf h bs ha

@[simp] theorem length_readBytes (s : State) (a n : Nat) : (s.readBytes a n).length = n := length_memReadBytes _ _ _

@[simp] theorem getElem_readBytes (s : State) (a n k : Nat) (h : k < (s.readBytes a n).length) :
    (s.readBytes a n)[k] = s.byte (a + k) := getElem_memReadBytes _ _ _ _ h

/-- The reset contents (R28): the font the machine was built with in 0x000 to 0x04F, zeros above. -/
theorem resetByte_font (f : Config.Font) (a : Nat) (h : a < 80) : resetByte f a = f[a] := by
  simp [resetByte, h]

theorem resetByte_above (f : Config.Font) (a : Nat) (h : 80 ≤ a) : resetByte f a = 0x00#8 := by
  simp [resetByte, Vector.getElem?_eq_none h]

/-! ### The stack -/

/-- A push that succeeds: there was room, the slot at SP takes the address, SP is one more. -/
theorem push_some {s t : State} {a : Word} (h : s.push a = some t) :
    ∃ hs : s.sp.val < 16, t = (s.setStack (s.stack.set s.sp.val a)).setSp ⟨s.sp.val + 1, by omega⟩ := by
  unfold State.push at h; split at h
  · next hs => exact ⟨hs, by simpa [eq_comm] using h⟩
  · simp at h

theorem push_none {s : State} {a : Word} : s.push a = none ↔ s.sp.val = 16 := by
  unfold State.push; split
  · simp; omega
  · simp; omega

/-- A pop that succeeds: the stack was not empty, SP is one less, the address is the slot then at SP. -/
theorem pop_some {s t : State} {a : Word} (h : s.pop = some (a, t)) :
    ∃ hs : 0 < s.sp.val, a = s.stack[s.sp.val - 1] ∧ t = s.setSp ⟨s.sp.val - 1, by omega⟩ := by
  unfold State.pop at h; split at h
  · next hs => simp only [Option.some.injEq, Prod.mk.injEq] at h; exact ⟨hs, h.1.symm, h.2.symm⟩
  · simp at h

theorem pop_none {s : State} : s.pop = none ↔ s.sp.val = 0 := by
  unfold State.pop; split
  · simp; omega
  · simp; omega

/-! ### The flag writers (42_alu_and_registers.md R121) -/

/-- Every register after the flag, then the result. -/
theorem reg_flagThenResult (f : State → Byte × Bool) (x : Reg) (s : State) (r : Reg) :
    (flagThenResult f x s).reg r =
      if r = x then (f (s.setReg vf (flagByte (f s).2))).1 else if r = vf then flagByte (f s).2 else s.reg r := by
  simp only [flagThenResult, State.reg_setReg]

/-- It writes registers only. -/
theorem flagThenResult_eq (f : State → Byte × Bool) (x : Reg) (s : State) :
    flagThenResult f x s = (s.setReg vf (flagByte (f s).2)).setReg x (f (s.setReg vf (flagByte (f s).2))).1 := rfl

/-- Every register after the copy, the flag, then the result. -/
theorem reg_copyThenShift (f : Byte → Byte × Bool) (x y : Reg) (s : State) (r : Reg) :
    (copyThenShift f x y s).reg r =
      if r = x then (f (if x = vf then flagByte (f (s.reg y)).2 else s.reg y)).1
      else if r = vf then flagByte (f (s.reg y)).2 else s.reg r := by
  by_cases hr : r = x
  · subst hr; by_cases hx : r = vf <;> simp [copyThenShift, State.reg_setReg, hx]
  · by_cases hv : r = vf <;> simp [copyThenShift, State.reg_setReg, hr, hv]

/-- It writes registers only. -/
theorem copyThenShift_eq (f : Byte → Byte × Bool) (x y : Reg) (s : State) :
    copyThenShift f x y s = s.setV (copyThenShift f x y s).v := rfl

/-! ### Register runs (FX55, FX65) -/

theorem getElem_loadedRegs (v : Vector Byte 16) (f : Nat → Byte) (n k : Nat) (hk : k < 16) :
    (loadedRegs v f n)[k] = if k < n then f k else v[k] := by
  induction n with
  | zero => simp [loadedRegs]
  | succ n ih =>
    simp only [loadedRegs, Vector.getElem_setIfInBounds]
    split
    · next h => subst h; simp
    · next h => rw [ih]; by_cases hn : k < n
                · rw [if_pos hn, if_pos (by omega)]
                · rw [if_neg hn, if_neg (by omega)]

theorem length_regBytes (s : State) (n : Nat) : (regBytes s n).length = min n 16 := by simp [regBytes]

theorem getElem_regBytes (s : State) (n k : Nat) (h : k < (regBytes s n).length) (hk : k < 16) :
    (regBytes s n)[k] = s.reg ⟨k, hk⟩ := by
  simp [regBytes, State.reg]

@[simp] theorem reg_bumpI (s : State) (n : Nat) (r : Reg) : (bumpI s n).reg r = s.reg r := rfl

theorem bumpI_eq (s : State) (n : Nat) : bumpI s n = s.setI (s.i + BitVec.ofNat 16 n) := rfl

/-- The access check (20_memory.md R45). -/
theorem accessFits_iff (s : State) (n : Nat) : accessFits s n = true ↔ n = 0 ∨ s.i.toNat + n ≤ 4096 := by
  exact decide_eq_true_iff

@[simp] theorem effAddr_zero (s : State) : effAddr s 0 = s.i.toNat := rfl

/-! ### The keypad -/

theorem anyKey_iff (s : State) : s.anyKey = true ↔ ∃ k : Fin 16, s.key k = true := by
  unfold State.anyKey State.key
  rw [List.any_eq_true]
  constructor
  · rintro ⟨b, hb, h⟩
    obtain ⟨k, hk, rfl⟩ := List.getElem_of_mem hb
    simp only [Vector.length_toList] at hk
    exact ⟨⟨k, hk⟩, by simpa using h⟩
  · rintro ⟨k, hk⟩
    exact ⟨s.keys[k], by simp, by simpa using hk⟩

/-- The smallest pressed index. -/
theorem firstKey_some {s : State} {k : Nat} (h : s.firstKey = some k) :
    ∃ hk : k < 16, s.key ⟨k, hk⟩ = true ∧ ∀ j : Fin 16, j.val < k → s.key j = false := by
  unfold State.firstKey at h
  rw [List.findIdx?_eq_some_iff_getElem] at h
  obtain ⟨hk, hp, hj⟩ := h
  simp only [Vector.length_toList] at hk
  refine ⟨hk, by simpa [State.key] using hp, fun j hjk => ?_⟩
  have := hj j.val hjk
  simpa [State.key] using this

theorem firstKey_none {s : State} : s.firstKey = none ↔ s.anyKey = false := by
  unfold State.firstKey State.anyKey
  rw [List.findIdx?_eq_none_iff, List.any_eq_false]; simp

/-- The key a register names. -/
theorem keyOfReg_some {x : Reg} {s : State} {b : Bool} :
    keyOfReg x s = some b ↔ ∃ h : (s.reg x).toNat < 16, s.key ⟨(s.reg x).toNat, h⟩ = b := by
  unfold keyOfReg; split
  · next h => simp [h]
  · next h => simp [h]

theorem keyOfReg_none {x : Reg} {s : State} : keyOfReg x s = none ↔ 15 < (s.reg x).toNat := by
  unfold keyOfReg; split
  · simp; omega
  · simp; omega

end Sys2Proof.Machine
end

