-- ==== Sys2Proof/Laws/Display.lean ====
section
/-! SUPPORT. The blitter cell by cell: what `blit` leaves in each cell and when it reports a collision. -/

namespace Sys2Proof.Machine

/-- A list of sprite rows drawn from column x0 and row y0 has a bit of 1 on cell (x, y). -/
def spriteCovers (rows : List Byte) (x0 y0 x y : Nat) : Bool :=
  decide (x0 ≤ x ∧ x < x0 + 8 ∧ y0 ≤ y) && (rows[y - y0]?.getD 0#8).getLsbD (7 - (x - x0))

theorem displayRow_set (d : Display) (y0 : Nat) (r : BitVec 64) (y : Nat) :
    displayRow (d.setIfInBounds y0 r) y = if y = y0 ∧ y < 32 then r else displayRow d y := by
  unfold displayRow
  rw [Vector.getElem?_setIfInBounds]
  by_cases h : y0 = y
  · subst h
    by_cases h' : y0 < 32
    · simp [h']
    · simp [h']
  · simp [h, show ¬ y = y0 by omega]

theorem displayRow_clear (y : Nat) : displayRow displayClear y = 0#64 := by
  unfold displayRow displayClear
  by_cases h : y < 32
  · simp [h]
  · simp [Vector.getElem?_eq_none (show 32 ≤ y by omega)]

@[simp] theorem displayCell_clear (x y : Nat) : displayCell displayClear x y = false := by
  simp [displayCell, displayRow_clear]

/-- Column x of a sprite byte drawn from x0. -/
theorem spriteMask_getMsbD (b : Byte) (x0 x : Nat) (hx : x < 64) :
    (spriteMask b x0).getMsbD x = (decide (x0 ≤ x ∧ x < x0 + 8) && b.getLsbD (7 - (x - x0))) := by
  unfold spriteMask
  rw [BitVec.getMsbD_ushiftRight]
  by_cases h : x0 ≤ x
  · rw [BitVec.getMsbD_eq_getLsbD]
    simp only [BitVec.getLsbD_shiftLeft, BitVec.getLsbD_setWidth]
    by_cases h8 : x < x0 + 8
    · have h1 : 64 - 1 - (x - x0) - 56 = 7 - (x - x0) := by omega
      simp [hx, h, h8, h1, show ¬ x < x0 by omega, show x - x0 < 64 by omega, show ¬ 63 - (x - x0) < 56 by omega,
        show 63 - (x - x0) < 64 by omega, show 7 - (x - x0) < 64 by omega]
    · simp [hx, h, h8, show 63 - (x - x0) < 56 by omega]
  · simp [h, show x < x0 by omega]

/-- The first row of a sprite, and the rows after it. -/
theorem spriteCovers_cons (b : Byte) (bs : List Byte) (x0 y0 x y : Nat) :
    spriteCovers (b :: bs) x0 y0 x y =
      if y = y0 then decide (x0 ≤ x ∧ x < x0 + 8) && b.getLsbD (7 - (x - x0)) else spriteCovers bs x0 (y0 + 1) x y := by
  unfold spriteCovers
  by_cases h : y = y0
  · subst h; simp
  · rw [if_neg h]
    by_cases h' : y0 ≤ y
    · simp [h', show y0 + 1 ≤ y by omega, show y - y0 = (y - (y0 + 1)) + 1 by omega]
    · simp [h', show ¬ y0 + 1 ≤ y by omega]

@[simp] theorem spriteCovers_nil (x0 y0 x y : Nat) : spriteCovers [] x0 y0 x y = false := by
  simp [spriteCovers]

/-- `blit` cell by cell (44_display.md R157): a cell is flipped where the sprite has a bit of 1, and nowhere else. -/
theorem displayCell_blit (d : Display) (x0 y0 : Nat) (bs : List Byte) (hy : y0 + bs.length ≤ 32) (x y : Nat)
    (hx : x < 64) :
    displayCell (blit d x0 y0 bs).1 x y = (displayCell d x y ^^ spriteCovers bs x0 y0 x y) := by
  induction bs generalizing d y0 with
  | nil => simp [blit]
  | cons b bs ih =>
    simp only [List.length_cons] at hy
    simp only [blit]
    rw [ih _ _ (by omega), spriteCovers_cons]
    unfold displayCell
    rw [displayRow_set]
    by_cases h : y = y0
    · subst h
      have : spriteCovers bs x0 (y + 1) x y = false := by simp [spriteCovers]
      simp [this, show y < 32 by omega, spriteMask_getMsbD _ _ _ hx]
    · simp [h]

/-- A word of cells is not clear exactly when some cell is 1. -/
theorem ne_zero_iff_getMsbD (r : BitVec 64) : (r != 0#64) = true ↔ ∃ x, x < 64 ∧ r.getMsbD x = true := by
  constructor
  · intro h
    by_contra hn
    apply (bne_iff_ne.mp h)
    apply BitVec.eq_of_getMsbD_eq
    intro i hi
    have : r.getMsbD i ≠ true := fun hh => hn ⟨i, hi, hh⟩
    simpa using this
  · rintro ⟨x, hx, h⟩
    apply bne_iff_ne.mpr
    rintro rfl
    simp at h

/-- The collision `blit` reports (R157): some sprite bit of 1 meets a cell that was 1. -/
theorem blit_collision (d : Display) (x0 y0 : Nat) (bs : List Byte) (hy : y0 + bs.length ≤ 32) :
    (blit d x0 y0 bs).2 = true ↔
      ∃ x y, x < 64 ∧ y < 32 ∧ spriteCovers bs x0 y0 x y = true ∧ displayCell d x y = true := by
  induction bs generalizing d y0 with
  | nil => simp [blit]
  | cons b bs ih =>
    simp only [List.length_cons] at hy
    simp only [blit, Bool.or_eq_true]
    rw [ih _ _ (by omega), ne_zero_iff_getMsbD]
    constructor
    · rintro (⟨x, hx, h⟩ | ⟨x, y, hx, hyy, hs, hc⟩)
      · rw [BitVec.getMsbD_and, Bool.and_eq_true, spriteMask_getMsbD _ _ _ hx] at h
        refine ⟨x, y0, hx, by omega, ?_, h.1⟩
        rw [spriteCovers_cons, if_pos rfl]; exact h.2
      · have hne : y ≠ y0 := by
          rintro rfl
          simp [spriteCovers] at hs
        refine ⟨x, y, hx, hyy, ?_, ?_⟩
        · rw [spriteCovers_cons, if_neg hne]; exact hs
        · unfold displayCell at hc ⊢
          rw [displayRow_set, if_neg (by simp [hne])] at hc; exact hc
    · rintro ⟨x, y, hx, hyy, hs, hc⟩
      rw [spriteCovers_cons] at hs
      by_cases hne : y = y0
      · subst hne
        left
        refine ⟨x, hx, ?_⟩
        rw [BitVec.getMsbD_and, Bool.and_eq_true, spriteMask_getMsbD _ _ _ hx]
        exact ⟨hc, by simpa using hs⟩
      · right
        refine ⟨x, y, hx, hyy, by simpa [hne] using hs, ?_⟩
        unfold displayCell at hc ⊢
        rw [displayRow_set, if_neg (by simp [hne])]; exact hc

/-- The rows DXYN reads are the sprite of its own rule, cell by cell. -/
theorem spriteCovers_eq_spriteOn (s : State) (x y : Reg) (n cx cy : Nat) :
    spriteCovers (s.readBytes (effAddr s 0) (drawRows y n s)) (drawX x s) (drawY y s) cx cy =
      spriteOn s x y n cx cy := by
  simp only [spriteCovers, spriteOn, drawRows, drawX, drawY, Config.displayW, Config.displayH, effAddr]
  by_cases h : (s.reg y).toNat % 32 ≤ cy
  · by_cases h' : cy - (s.reg y).toNat % 32 < min n (32 - (s.reg y).toNat % 32)
    · rw [List.getElem?_eq_getElem (by simpa using h'), getElem_readBytes]
      simp [h, show cy < (s.reg y).toNat % 32 + min n (32 - (s.reg y).toNat % 32) by omega]
    · rw [List.getElem?_eq_none (by rw [length_readBytes]; omega)]
      simp [h, show ¬ cy < (s.reg y).toNat % 32 + min n (32 - (s.reg y).toNat % 32) by omega]
  · simp [h]

end Sys2Proof.Machine
end

