-- ==== Sys2Proof/Laws/Encoding.lean ====
section
/-! SUPPORT. Words as numbers: the fields of a word built by a format, a word rebuilt from its fields, words from bytes. -/

namespace Sys2Proof

/-! ### Formats and fields as numbers -/

/-- Concatenation is multiplication and addition. -/
theorem toNat_concat {m n : Nat} (a : BitVec m) (b : BitVec n) : (a ++ b).toNat = a.toNat * 2 ^ n + b.toNat := by
  rw [BitVec.toNat_append, ← Nat.shiftLeft_add_eq_or_of_lt b.isLt, Nat.shiftLeft_eq]

theorem toNat_formatA (t : Nibble) (nnn : Addr12) : (formatA t nnn).toNat = t.toNat * 4096 + nnn.toNat :=
  toNat_concat t nnn

theorem toNat_formatXB (t : Nibble) (x : Reg) (nn : Byte) :
    (formatXB t x nn).toNat = t.toNat * 4096 + x.val * 256 + nn.toNat := by
  have h : (formatXB t x nn).toNat = (t ++ BitVec.ofFin (w := 4) x).toNat * 2 ^ 8 + nn.toNat := toNat_concat _ nn
  have h1 : (t ++ BitVec.ofFin (w := 4) x).toNat = t.toNat * 2 ^ 4 + x.val := toNat_concat t _
  rw [h, h1]; omega

theorem toNat_formatXY (t : Nibble) (x y : Reg) (n : Nibble) :
    (formatXY t x y n).toNat = t.toNat * 4096 + x.val * 256 + y.val * 16 + n.toNat := by
  have h : (formatXY t x y n).toNat =
      (t ++ BitVec.ofFin (w := 4) x ++ BitVec.ofFin (w := 4) y).toNat * 2 ^ 4 + n.toNat := toNat_concat _ n
  have h1 : (t ++ BitVec.ofFin (w := 4) x ++ BitVec.ofFin (w := 4) y).toNat =
      (t ++ BitVec.ofFin (w := 4) x).toNat * 2 ^ 4 + y.val := toNat_concat _ _
  have h2 : (t ++ BitVec.ofFin (w := 4) x).toNat = t.toNat * 2 ^ 4 + x.val := toNat_concat t _
  rw [h, h1, h2]; omega

section
variable (w : Word)

theorem toNat_fieldT : (fieldT w).toNat = w.toNat / 4096 := by
  have := w.isLt; simp only [fieldT, BitVec.extractLsb'_toNat, Nat.shiftRight_eq_div_pow]; omega
theorem val_fieldX : (fieldX w).val = w.toNat / 256 % 16 := by
  simp only [fieldX, BitVec.val_toFin, BitVec.extractLsb'_toNat, Nat.shiftRight_eq_div_pow]
theorem val_fieldY : (fieldY w).val = w.toNat / 16 % 16 := by
  simp only [fieldY, BitVec.val_toFin, BitVec.extractLsb'_toNat, Nat.shiftRight_eq_div_pow]
theorem toNat_fieldN : (fieldN w).toNat = w.toNat % 16 := by
  simp only [fieldN, BitVec.extractLsb'_toNat, Nat.shiftRight_eq_div_pow]; omega
theorem toNat_fieldNN : (fieldNN w).toNat = w.toNat % 256 := by
  simp only [fieldNN, BitVec.extractLsb'_toNat, Nat.shiftRight_eq_div_pow]; omega
theorem toNat_fieldNNN : (fieldNNN w).toNat = w.toNat % 4096 := by
  simp only [fieldNNN, BitVec.extractLsb'_toNat, Nat.shiftRight_eq_div_pow]; omega
end

theorem toNat_opcodeOf (hi lo : Byte) : (opcodeOf hi lo).toNat = hi.toNat * 256 + lo.toNat := toNat_concat hi lo

theorem toNat_opcodeHi (w : Word) : (opcodeHi w).toNat = w.toNat / 256 := by
  have := w.isLt; simp only [opcodeHi, BitVec.extractLsb'_toNat, Nat.shiftRight_eq_div_pow]; omega

theorem toNat_opcodeLo (w : Word) : (opcodeLo w).toNat = w.toNat % 256 := by
  simp only [opcodeLo, BitVec.extractLsb'_toNat, Nat.shiftRight_eq_div_pow]; omega

/-! ### The fields of a format -/

section
variable (t : Nibble) (x y : Reg) (n : Nibble) (nn : Byte) (nnn : Addr12)

@[simp] theorem fieldT_formatA : fieldT (formatA t nnn) = t := by
  apply BitVec.eq_of_toNat_eq; rw [toNat_fieldT, toNat_formatA]; omega
@[simp] theorem fieldNNN_formatA : fieldNNN (formatA t nnn) = nnn := by
  apply BitVec.eq_of_toNat_eq; rw [toNat_fieldNNN, toNat_formatA]; omega
@[simp] theorem fieldT_formatXB : fieldT (formatXB t x nn) = t := by
  apply BitVec.eq_of_toNat_eq; rw [toNat_fieldT, toNat_formatXB]; omega
@[simp] theorem fieldX_formatXB : fieldX (formatXB t x nn) = x := by
  apply Fin.ext; rw [val_fieldX, toNat_formatXB]; omega
@[simp] theorem fieldNN_formatXB : fieldNN (formatXB t x nn) = nn := by
  apply BitVec.eq_of_toNat_eq; rw [toNat_fieldNN, toNat_formatXB]; omega
@[simp] theorem fieldT_formatXY : fieldT (formatXY t x y n) = t := by
  apply BitVec.eq_of_toNat_eq; rw [toNat_fieldT, toNat_formatXY]; omega
@[simp] theorem fieldX_formatXY : fieldX (formatXY t x y n) = x := by
  apply Fin.ext; rw [val_fieldX, toNat_formatXY]; omega
@[simp] theorem fieldY_formatXY : fieldY (formatXY t x y n) = y := by
  apply Fin.ext; rw [val_fieldY, toNat_formatXY]; omega
@[simp] theorem fieldN_formatXY : fieldN (formatXY t x y n) = n := by
  apply BitVec.eq_of_toNat_eq; rw [toNat_fieldN, toNat_formatXY]; omega
end

/-! ### A word from its fields -/

section
variable (w : Word)

theorem formatA_fields : formatA (fieldT w) (fieldNNN w) = w := by
  apply BitVec.eq_of_toNat_eq; rw [toNat_formatA, toNat_fieldT, toNat_fieldNNN]; omega
theorem formatXB_fields : formatXB (fieldT w) (fieldX w) (fieldNN w) = w := by
  apply BitVec.eq_of_toNat_eq; rw [toNat_formatXB, toNat_fieldT, val_fieldX, toNat_fieldNN]; omega
theorem formatXY_fields : formatXY (fieldT w) (fieldX w) (fieldY w) (fieldN w) = w := by
  apply BitVec.eq_of_toNat_eq; rw [toNat_formatXY, toNat_fieldT, val_fieldX, val_fieldY, toNat_fieldN]; omega
@[simp] theorem opcodeOf_bytes : opcodeOf (opcodeHi w) (opcodeLo w) = w := by
  apply BitVec.eq_of_toNat_eq; rw [toNat_opcodeOf, toNat_opcodeHi, toNat_opcodeLo]; omega
end

@[simp] theorem opcodeHi_opcodeOf (hi lo : Byte) : opcodeHi (opcodeOf hi lo) = hi := by
  apply BitVec.eq_of_toNat_eq; rw [toNat_opcodeHi, toNat_opcodeOf]; omega
@[simp] theorem opcodeLo_opcodeOf (hi lo : Byte) : opcodeLo (opcodeOf hi lo) = lo := by
  apply BitVec.eq_of_toNat_eq; rw [toNat_opcodeLo, toNat_opcodeOf]; omega

/-! ### The masks of the opcode map (30_encoding.md R63) as numbers -/

theorem toNat_maskT (w : Word) : (w &&& 0xF000#16).toNat = w.toNat / 4096 * 4096 := by
  have h : w &&& 0xF000#16 = (w >>> 12) <<< 12 := by
    ext i hi; interval_cases i <;> simp
  rw [h, BitVec.toNat_shiftLeft, BitVec.toNat_ushiftRight, Nat.shiftLeft_eq, Nat.shiftRight_eq_div_pow]
  have := w.isLt; omega

theorem toNat_maskTN (w : Word) : (w &&& 0xF00F#16).toNat = w.toNat / 4096 * 4096 + w.toNat % 16 := by
  have h : w &&& 0xF00F#16 = (w >>> 12) <<< 12 ||| (w &&& 0xF#16) := by
    ext i hi; interval_cases i <;> simp
  have hb : (w &&& 0xF#16).toNat = w.toNat % 16 := by
    rw [BitVec.toNat_and]; exact Nat.and_two_pow_sub_one_eq_mod w.toNat 4
  have ha : ((w >>> 12) <<< 12).toNat = (w.toNat / 4096) <<< 12 := by
    rw [BitVec.toNat_shiftLeft, BitVec.toNat_ushiftRight, Nat.shiftLeft_eq, Nat.shiftRight_eq_div_pow]
    have := w.isLt; omega
  rw [h, BitVec.toNat_or, ha, hb, ← Nat.shiftLeft_add_eq_or_of_lt (by omega), Nat.shiftLeft_eq]

theorem toNat_maskTNN (w : Word) : (w &&& 0xF0FF#16).toNat = w.toNat / 4096 * 4096 + w.toNat % 256 := by
  have h : w &&& 0xF0FF#16 = (w >>> 12) <<< 12 ||| (w &&& 0xFF#16) := by
    ext i hi; interval_cases i <;> simp
  have hb : (w &&& 0xFF#16).toNat = w.toNat % 256 := by
    rw [BitVec.toNat_and]; exact Nat.and_two_pow_sub_one_eq_mod w.toNat 8
  have ha : ((w >>> 12) <<< 12).toNat = (w.toNat / 4096) <<< 12 := by
    rw [BitVec.toNat_shiftLeft, BitVec.toNat_ushiftRight, Nat.shiftLeft_eq, Nat.shiftRight_eq_div_pow]
    have := w.isLt; omega
  rw [h, BitVec.toNat_or, ha, hb, ← Nat.shiftLeft_add_eq_or_of_lt (by omega), Nat.shiftLeft_eq]

/-! ### What the decoder answers -/

theorem decodeWord_ok_iff (w : Word) (i : Instr) : decodeWord w = .ok i ↔ selectRow w = some i := by
  unfold decodeWord; cases selectRow w <;> simp

/-- `decodeWord` has one error, naming the word. -/
theorem decodeWord_error_iff (w : Word) (e : DecodeError) :
    decodeWord w = .error e ↔ selectRow w = none ∧ e = .unrecognizedOpcode w := by
  unfold decodeWord; cases selectRow w <;> simp [eq_comm]

/-- Two bytes decode as the word they make. -/
theorem decodeBytes_cons (hi lo : Byte) (rest : List Byte) (i : Instr) :
    decodeBytes (hi :: lo :: rest) = .ok (i, rest) ↔ decodeWord (opcodeOf hi lo) = .ok i := by
  rw [decodeBytes]; cases h : decodeWord (opcodeOf hi lo) <;> simp

end Sys2Proof
end

