-- ==== Sys2Proof/Laws/Events.lean ====
section
/-! SUPPORT. What the step event leaves, sequences of events joined, and what the end of a run says of a state. -/

namespace Sys2Proof.Machine

/-- The step event after a step that answers a next state. -/
theorem stepEvent_of_next {s t : State} (h : step s = .next t) : stepEvent s = (t, t.result) := by
  unfold stepEvent; rw [h]

@[simp] theorem runEvents_nil (s : State) : runEvents [] s = s := rfl

@[simp] theorem runEvents_cons (e : Event) (es : List Event) (s : State) :
    runEvents (e :: es) s = runEvents es (applyEvent e s).1 := rfl

theorem runEvents_append (es es' : List Event) (s : State) :
    runEvents (es ++ es') s = runEvents es' (runEvents es s) := by
  induction es generalizing s with
  | nil => rfl
  | cons e es ih => exact ih _

/-- What `runEnded` says: the fetch succeeds and the opcode is the jump to PC. -/
theorem runEnded_spec {s : State} :
    runEnded s = true ↔
      s.pc.toNat ≤ 0xFFE ∧ decodeWord (opcodeAt s s.pc.toNat) = .ok (.jp (s.pc.setWidth 12)) := by
  unfold runEnded; rw [Bool.and_eq_true, canFetch_iff, decide_eq_true_iff]

/-- It looks at PC, memory and the font alone. -/
theorem runEnded_congr {s t : State} (hp : t.pc = s.pc) (hm : ∀ a, t.byte a = s.byte a) : runEnded t = runEnded s := by
  unfold runEnded canFetch opcodeAt; simp only [hp, hm]

@[simp] theorem runToEnd_zero (s : State) : runToEnd 0 s = s := rfl

theorem runToEnd_of_ended {s : State} (h : runEnded s = true) (n : Nat) : runToEnd n s = s := by
  cases n with
  | zero => rfl
  | succ n => rw [runToEnd, if_pos h]

theorem runToEnd_of_not_ended {s : State} (h : runEnded s = false) (n : Nat) :
    runToEnd (n + 1) s = runToEnd n (stepEvent s).1 := by
  rw [runToEnd, if_neg (by simp [h])]

end Sys2Proof.Machine
end

