-- ==== Sys2Proof/Laws/Exec.lean ====
section
/-! SUPPORT. What the execute phase can answer, said once for every instruction. -/

namespace Sys2Proof.Machine

/-- An instruction completes some state, or rewinds some state, or raises an error on the state it was given
(40_fetch_decode_execute.md R86: an error comes before the first write). -/
theorem exec_cases (i : Instr) (s : State) :
    (∃ u, exec i s = complete u) ∨ (∃ u, exec i s = retry u) ∨ (∃ k, exec i s = raise k s) := by
  cases i with
  | ret =>
    simp only [exec, execRet]; split
    · exact .inl ⟨_, rfl⟩
    · exact .inr (.inr ⟨_, rfl⟩)
  | call nnn =>
    simp only [exec, execCall]; split
    · exact .inl ⟨_, rfl⟩
    · exact .inr (.inr ⟨_, rfl⟩)
  | drw x y n =>
    simp only [exec, execDrw]; split
    · exact .inl ⟨_, rfl⟩
    · exact .inr (.inr ⟨_, rfl⟩)
  | skp x =>
    simp only [exec, execSkp]; split
    · exact .inl ⟨_, rfl⟩
    · exact .inr (.inr ⟨_, rfl⟩)
  | sknp x =>
    simp only [exec, execSknp]; split
    · exact .inl ⟨_, rfl⟩
    · exact .inr (.inr ⟨_, rfl⟩)
  | ldB x =>
    simp only [exec, execLdB]; split
    · exact .inl ⟨_, rfl⟩
    · exact .inr (.inr ⟨_, rfl⟩)
  | stRegs x =>
    simp only [exec, execStRegs]; split
    · exact .inl ⟨_, rfl⟩
    · exact .inr (.inr ⟨_, rfl⟩)
  | ldRegs x =>
    simp only [exec, execLdRegs]; split
    · exact .inl ⟨_, rfl⟩
    · exact .inr (.inr ⟨_, rfl⟩)
  | ldVxK x =>
    simp only [exec, execLdVxK]; split
    · exact .inr (.inl ⟨_, rfl⟩)
    · split
      · exact .inr (.inl ⟨_, rfl⟩)
      · exact .inr (.inl ⟨_, rfl⟩)
    · split
      · exact .inr (.inl ⟨_, rfl⟩)
      · exact .inl ⟨_, rfl⟩
  | _ => exact .inl ⟨_, rfl⟩

end Sys2Proof.Machine
end

