-- ==== Sys2Proof/Laws/PerInstr.lean ====
section
/-! SUPPORT. Statements made for every instruction, one lemma per constructor. -/

namespace Sys2Proof.Laws

/-- A word in format A selects a row of format A (mask 0xF000) when the classes agree. -/
theorem selects_formatA {r : OpcodeRow} {t : Nibble} {nnn : Addr12} (hm : r.mask = 0xF000#16)
    (hv : r.value.toNat = t.toNat * 4096) : r.selects (formatA t nnn) = true := by
  rw [OpcodeRow.selects, beq_iff_eq]
  apply BitVec.eq_of_toNat_eq
  rw [hm, toNat_maskT, toNat_formatA, hv]; omega

/-- A word in format XB selects a row of format XB (mask 0xF000) when the classes agree. -/
theorem selects_formatXB {r : OpcodeRow} {t : Nibble} {x : Reg} {nn : Byte} (hm : r.mask = 0xF000#16)
    (hv : r.value.toNat = t.toNat * 4096) : r.selects (formatXB t x nn) = true := by
  rw [OpcodeRow.selects, beq_iff_eq]
  apply BitVec.eq_of_toNat_eq
  rw [hm, toNat_maskT, toNat_formatXB, hv]; omega

/-- A word in format XYN selects a row of format XYN (mask 0xF000) when the classes agree. -/
theorem selects_formatXYN {r : OpcodeRow} {t : Nibble} {x y : Reg} {n : Nibble} (hm : r.mask = 0xF000#16)
    (hv : r.value.toNat = t.toNat * 4096) : r.selects (formatXY t x y n) = true := by
  rw [OpcodeRow.selects, beq_iff_eq]
  apply BitVec.eq_of_toNat_eq
  rw [hm, toNat_maskT, toNat_formatXY, hv]; omega

/-- A word in format XY selects a row of format XY (mask 0xF00F) when class and low nibble agree. -/
theorem selects_formatXY {r : OpcodeRow} {t : Nibble} {x y : Reg} {n : Nibble} (hm : r.mask = 0xF00F#16)
    (hv : r.value.toNat = t.toNat * 4096 + n.toNat) : r.selects (formatXY t x y n) = true := by
  rw [OpcodeRow.selects, beq_iff_eq]
  apply BitVec.eq_of_toNat_eq
  rw [hm, toNat_maskTN, toNat_formatXY, hv]; omega

/-- A word in format XF selects a row of format XF (mask 0xF0FF) when class and low byte agree. -/
theorem selects_formatXF {r : OpcodeRow} {t : Nibble} {x : Reg} {nn : Byte} (hm : r.mask = 0xF0FF#16)
    (hv : r.value.toNat = t.toNat * 4096 + nn.toNat) : r.selects (formatXB t x nn) = true := by
  rw [OpcodeRow.selects, beq_iff_eq]
  apply BitVec.eq_of_toNat_eq
  rw [hm, toNat_maskTNN, toNat_formatXB, hv]; omega

/-- The encoding of an instruction selects a row of the opcode map (30_encoding.md R63). -/
def SelectsItsRow.Statement (i : Instr) : Prop := ∃ r ∈ opcodeTable, r.selects (encode i) = true

theorem SelectsItsRow.cls : SelectsItsRow.Statement .cls :=
  ⟨opcodeTable[0], List.getElem_mem _, rfl⟩
theorem SelectsItsRow.ret : SelectsItsRow.Statement .ret :=
  ⟨opcodeTable[1], List.getElem_mem _, rfl⟩
theorem SelectsItsRow.jp (nnn : Addr12) : SelectsItsRow.Statement (.jp nnn) :=
  ⟨opcodeTable[2], List.getElem_mem _, selects_formatA rfl rfl⟩
theorem SelectsItsRow.call (nnn : Addr12) : SelectsItsRow.Statement (.call nnn) :=
  ⟨opcodeTable[3], List.getElem_mem _, selects_formatA rfl rfl⟩
theorem SelectsItsRow.seByte (x : Reg) (nn : Byte) : SelectsItsRow.Statement (.seByte x nn) :=
  ⟨opcodeTable[4], List.getElem_mem _, selects_formatXB rfl rfl⟩
theorem SelectsItsRow.sneByte (x : Reg) (nn : Byte) : SelectsItsRow.Statement (.sneByte x nn) :=
  ⟨opcodeTable[5], List.getElem_mem _, selects_formatXB rfl rfl⟩
theorem SelectsItsRow.seReg (x y : Reg) : SelectsItsRow.Statement (.seReg x y) :=
  ⟨opcodeTable[6], List.getElem_mem _, selects_formatXY rfl rfl⟩
theorem SelectsItsRow.ldByte (x : Reg) (nn : Byte) : SelectsItsRow.Statement (.ldByte x nn) :=
  ⟨opcodeTable[7], List.getElem_mem _, selects_formatXB rfl rfl⟩
theorem SelectsItsRow.addByte (x : Reg) (nn : Byte) : SelectsItsRow.Statement (.addByte x nn) :=
  ⟨opcodeTable[8], List.getElem_mem _, selects_formatXB rfl rfl⟩
theorem SelectsItsRow.ldReg (x y : Reg) : SelectsItsRow.Statement (.ldReg x y) :=
  ⟨opcodeTable[9], List.getElem_mem _, selects_formatXY rfl rfl⟩
theorem SelectsItsRow.orReg (x y : Reg) : SelectsItsRow.Statement (.orReg x y) :=
  ⟨opcodeTable[10], List.getElem_mem _, selects_formatXY rfl rfl⟩
theorem SelectsItsRow.andReg (x y : Reg) : SelectsItsRow.Statement (.andReg x y) :=
  ⟨opcodeTable[11], List.getElem_mem _, selects_formatXY rfl rfl⟩
theorem SelectsItsRow.xorReg (x y : Reg) : SelectsItsRow.Statement (.xorReg x y) :=
  ⟨opcodeTable[12], List.getElem_mem _, selects_formatXY rfl rfl⟩
theorem SelectsItsRow.addReg (x y : Reg) : SelectsItsRow.Statement (.addReg x y) :=
  ⟨opcodeTable[13], List.getElem_mem _, selects_formatXY rfl rfl⟩
theorem SelectsItsRow.subReg (x y : Reg) : SelectsItsRow.Statement (.subReg x y) :=
  ⟨opcodeTable[14], List.getElem_mem _, selects_formatXY rfl rfl⟩
theorem SelectsItsRow.shrReg (x y : Reg) : SelectsItsRow.Statement (.shrReg x y) :=
  ⟨opcodeTable[15], List.getElem_mem _, selects_formatXY rfl rfl⟩
theorem SelectsItsRow.subnReg (x y : Reg) : SelectsItsRow.Statement (.subnReg x y) :=
  ⟨opcodeTable[16], List.getElem_mem _, selects_formatXY rfl rfl⟩
theorem SelectsItsRow.shlReg (x y : Reg) : SelectsItsRow.Statement (.shlReg x y) :=
  ⟨opcodeTable[17], List.getElem_mem _, selects_formatXY rfl rfl⟩
theorem SelectsItsRow.sneReg (x y : Reg) : SelectsItsRow.Statement (.sneReg x y) :=
  ⟨opcodeTable[18], List.getElem_mem _, selects_formatXY rfl rfl⟩
theorem SelectsItsRow.ldI (nnn : Addr12) : SelectsItsRow.Statement (.ldI nnn) :=
  ⟨opcodeTable[19], List.getElem_mem _, selects_formatA rfl rfl⟩
theorem SelectsItsRow.jpV0 (nnn : Addr12) : SelectsItsRow.Statement (.jpV0 nnn) :=
  ⟨opcodeTable[20], List.getElem_mem _, selects_formatA rfl rfl⟩
theorem SelectsItsRow.rnd (x : Reg) (nn : Byte) : SelectsItsRow.Statement (.rnd x nn) :=
  ⟨opcodeTable[21], List.getElem_mem _, selects_formatXB rfl rfl⟩
theorem SelectsItsRow.drw (x y : Reg) (n : Nat) : SelectsItsRow.Statement (.drw x y n) :=
  ⟨opcodeTable[22], List.getElem_mem _, selects_formatXYN rfl rfl⟩
theorem SelectsItsRow.skp (x : Reg) : SelectsItsRow.Statement (.skp x) :=
  ⟨opcodeTable[23], List.getElem_mem _, selects_formatXF rfl rfl⟩
theorem SelectsItsRow.sknp (x : Reg) : SelectsItsRow.Statement (.sknp x) :=
  ⟨opcodeTable[24], List.getElem_mem _, selects_formatXF rfl rfl⟩
theorem SelectsItsRow.ldVxDt (x : Reg) : SelectsItsRow.Statement (.ldVxDt x) :=
  ⟨opcodeTable[25], List.getElem_mem _, selects_formatXF rfl rfl⟩
theorem SelectsItsRow.ldVxK (x : Reg) : SelectsItsRow.Statement (.ldVxK x) :=
  ⟨opcodeTable[26], List.getElem_mem _, selects_formatXF rfl rfl⟩
theorem SelectsItsRow.ldDtVx (x : Reg) : SelectsItsRow.Statement (.ldDtVx x) :=
  ⟨opcodeTable[27], List.getElem_mem _, selects_formatXF rfl rfl⟩
theorem SelectsItsRow.ldStVx (x : Reg) : SelectsItsRow.Statement (.ldStVx x) :=
  ⟨opcodeTable[28], List.getElem_mem _, selects_formatXF rfl rfl⟩
theorem SelectsItsRow.addI (x : Reg) : SelectsItsRow.Statement (.addI x) :=
  ⟨opcodeTable[29], List.getElem_mem _, selects_formatXF rfl rfl⟩
theorem SelectsItsRow.ldF (x : Reg) : SelectsItsRow.Statement (.ldF x) :=
  ⟨opcodeTable[30], List.getElem_mem _, selects_formatXF rfl rfl⟩
theorem SelectsItsRow.ldB (x : Reg) : SelectsItsRow.Statement (.ldB x) :=
  ⟨opcodeTable[31], List.getElem_mem _, selects_formatXF rfl rfl⟩
theorem SelectsItsRow.stRegs (x : Reg) : SelectsItsRow.Statement (.stRegs x) :=
  ⟨opcodeTable[32], List.getElem_mem _, selects_formatXF rfl rfl⟩
theorem SelectsItsRow.ldRegs (x : Reg) : SelectsItsRow.Statement (.ldRegs x) :=
  ⟨opcodeTable[33], List.getElem_mem _, selects_formatXF rfl rfl⟩

end Sys2Proof.Laws
end

