-- ==== Sys2Proof/Laws/Step.lean ====
section
/-! SUPPORT. The step on a word placed where it fetches: `withFetchWord` does what the host asks of it. -/

namespace Sys2Proof.Machine

theorem fetchable_pc (s : State) : s.fetchable.pc.toNat ≤ 0xFFE := by
  unfold State.fetchable; split
  · next h => exact (canFetch_iff s).mp h
  · simp [Config.pcReset]

/-- The opcode placed is the opcode fetched. -/
theorem opcodeAt_tableBytes (s : State) (a w : Nat) :
    opcodeAt (s.writeBytes a (tableBytes 16 w)) a = BitVec.ofNat 16 w := by
  have h0 := byte_writeBytes_inside s a (tableBytes 16 w) 0 (by simp [tableBytes])
  have h1 := byte_writeBytes_inside s a (tableBytes 16 w) 1 (by simp [tableBytes])
  rw [Nat.add_zero] at h0
  rw [opcodeAt, h0, h1]
  simp only [tableBytes, List.getElem_cons_zero, List.getElem_cons_succ, opcodeOf_bytes]
  apply BitVec.eq_of_toNat_eq; simp

/-- The very next step decodes the word placed, and runs it with that word in IR and PC two further. -/
theorem step_withFetchWord (s : State) (w : Nat) {i : Instr} (h : decodeWord (BitVec.ofNat 16 w) = .ok i) :
    step (s.withFetchWord 16 w) =
      exec i (((s.withFetchWord 16 w).setIr (BitVec.ofNat 16 w)).setPc (s.fetchable.pc + 2#16)) := by
  have hf : fetch (s.withFetchWord 16 w) =
      some (((s.withFetchWord 16 w).setIr (BitVec.ofNat 16 w)).setPc (s.fetchable.pc + 2#16)) := by
    rw [fetch_some]
    refine ⟨fetchable_pc s, ?_⟩
    have : opcodeAt (s.withFetchWord 16 w) (s.withFetchWord 16 w).pc.toNat = BitVec.ofNat 16 w :=
      opcodeAt_tableBytes _ _ _
    rw [this]; rfl
  unfold step
  rw [hf]
  simp only [State.setPc_ir, State.setIr_ir, h]

end Sys2Proof.Machine
end

