-- ==== Sys2Proof/Tests/Slice0.lean ====
section
/-! SUPPORT. The model's own tests. Expected values are those of spec/95_test_vectors.md, by the id named in each docstring, and
words written out from 30_encoding.md R62, R63; nothing here is the model's own answer. Then one witness for each statement of
Certificates/Slice0/Obligations.lean that has hypotheses. -/

namespace Sys2Proof.Tests

open Sys2Proof Sys2Proof.Machine

/-! ### Helpers -/

/-- The state with registers set. -/
def regs (rs : List (Reg × Byte)) (s : State) : State := rs.foldl (fun u r => u.setReg r.1 r.2) s

/-- The state with bytes stored from an address on. -/
def bytes (a : Nat) (bs : List Byte) (s : State) : State := s.writeBytes a bs

/-- The state with one key pressed. -/
def pressed (k : Byte) (s : State) : State := (keyPress k s).1

/-- The state with a cell of the display lit, by drawing a one-bit sprite. -/
def lit (x y : Nat) (s : State) : State := s.setDisp (blit s.disp x y [0x80#8]).1

/-- One step with an opcode placed where it is fetched, read off by `f`. -/
def runs {α : Type} (w : Nat) (s : State) (f : State → α) : Option α :=
  match step (s.withFetchWord 16 w) with
  | .next t => some (f t)
  | .fault _ | .refused _ => none

/-- What an outcome leaves. -/
def left (s : State) : Host.Outcome State Fault Refusal → State
  | .next t => t
  | .fault _ | .refused _ => s

/-- An outcome that is a next state. -/
def isNext : Host.Outcome State Fault Refusal → Bool
  | .next _ => true
  | .fault _ | .refused _ => false

theorem next_left {s : State} {o : Host.Outcome State Fault Refusal} (h : isNext o = true) : o = .next (left s o) := by
  cases o with
  | next t => rfl
  | fault f => cases h
  | refused r => cases h

/-- The fault of an outcome. -/
def faultOf : Host.Outcome State Fault Refusal → Option Fault
  | .fault f => some f
  | .next _ | .refused _ => none

/-! ### Which terms are instructions -/

/-- The one check of `WellFormed`: a row count of 16 has no encoding (R61: four bits). -/
theorem test_wellFormed_refuses_sixteen_rows : (Instr.drw 0 0 16).wellFormed = false := by decide

theorem test_wellFormed_accepts_fifteen_rows : (Instr.drw 0xF 0xF 15).wellFormed = true := by decide

/-! ### Decoding: one word for each row of R63, written out from its pattern -/

theorem test_decode_00E0 : decodeWord 0x00E0#16 = .ok .cls := by decide
theorem test_decode_00EE : decodeWord 0x00EE#16 = .ok .ret := by decide
theorem test_decode_1232 : decodeWord 0x1232#16 = .ok (.jp 0x232#12) := by decide
theorem test_decode_2FFF : decodeWord 0x2FFF#16 = .ok (.call 0xFFF#12) := by decide
theorem test_decode_332A : decodeWord 0x332A#16 = .ok (.seByte 3 0x2A#8) := by decide
theorem test_decode_4300 : decodeWord 0x4300#16 = .ok (.sneByte 3 0x00#8) := by decide
theorem test_decode_5120 : decodeWord 0x5120#16 = .ok (.seReg 1 2) := by decide
theorem test_decode_6FAB : decodeWord 0x6FAB#16 = .ok (.ldByte 0xF 0xAB#8) := by decide
theorem test_decode_71FF : decodeWord 0x71FF#16 = .ok (.addByte 1 0xFF#8) := by decide
theorem test_decode_83F0 : decodeWord 0x83F0#16 = .ok (.ldReg 3 0xF) := by decide
theorem test_decode_8121 : decodeWord 0x8121#16 = .ok (.orReg 1 2) := by decide
theorem test_decode_8122 : decodeWord 0x8122#16 = .ok (.andReg 1 2) := by decide
theorem test_decode_8123 : decodeWord 0x8123#16 = .ok (.xorReg 1 2) := by decide
theorem test_decode_8014 : decodeWord 0x8014#16 = .ok (.addReg 0 1) := by decide
theorem test_decode_81F5 : decodeWord 0x81F5#16 = .ok (.subReg 1 0xF) := by decide
theorem test_decode_8126 : decodeWord 0x8126#16 = .ok (.shrReg 1 2) := by decide
theorem test_decode_8F17 : decodeWord 0x8F17#16 = .ok (.subnReg 0xF 1) := by decide
theorem test_decode_812E : decodeWord 0x812E#16 = .ok (.shlReg 1 2) := by decide
theorem test_decode_9120 : decodeWord 0x9120#16 = .ok (.sneReg 1 2) := by decide
theorem test_decode_AFFF : decodeWord 0xAFFF#16 = .ok (.ldI 0xFFF#12) := by decide
theorem test_decode_B301 : decodeWord 0xB301#16 = .ok (.jpV0 0x301#12) := by decide
theorem test_decode_C3F0 : decodeWord 0xC3F0#16 = .ok (.rnd 3 0xF0#8) := by decide
theorem test_decode_D01F : decodeWord 0xD01F#16 = .ok (.drw 0 1 15) := by decide
theorem test_decode_E29E : decodeWord 0xE29E#16 = .ok (.skp 2) := by decide
theorem test_decode_E2A1 : decodeWord 0xE2A1#16 = .ok (.sknp 2) := by decide
theorem test_decode_FB07 : decodeWord 0xFB07#16 = .ok (.ldVxDt 0xB) := by decide
theorem test_decode_F30A : decodeWord 0xF30A#16 = .ok (.ldVxK 3) := by decide
theorem test_decode_FA15 : decodeWord 0xFA15#16 = .ok (.ldDtVx 0xA) := by decide
theorem test_decode_FA18 : decodeWord 0xFA18#16 = .ok (.ldStVx 0xA) := by decide
theorem test_decode_F11E : decodeWord 0xF11E#16 = .ok (.addI 1) := by decide
theorem test_decode_F429 : decodeWord 0xF429#16 = .ok (.ldF 4) := by decide
theorem test_decode_F533 : decodeWord 0xF533#16 = .ok (.ldB 5) := by decide
theorem test_decode_F255 : decodeWord 0xF255#16 = .ok (.stRegs 2) := by decide
theorem test_decode_F165 : decodeWord 0xF165#16 = .ok (.ldRegs 1) := by decide

/-- T-X1, T-X2, T-C19, T-C20, T-A44, T-A45, T-M20, T-K7, T-T9: words that match no row, each rejected under its own name. -/
theorem test_decode_unrecognized :
    [0x0000#16, 0x00E1#16, 0x01E0#16, 0x0123#16, 0x5121#16, 0x9121#16, 0x8128#16, 0x812F#16, 0xF156#16, 0xE19F#16, 0xE000#16,
      0xF100#16, 0xF1FF#16].all (fun w => decide (decodeWord w = .error (.unrecognizedOpcode w))) = true := by decide

/-- R41, R60: two bytes, the first is bits 15 to 8; what follows is left over. -/
theorem test_decode_bytes : decodeBytes [0x12#8, 0x32#8, 0xFF#8] = .ok (.jp 0x232#12, [0xFF#8]) := by decide

theorem test_decodeTableWord : decodeTableWord 16 0xD012 = some (.drw 0 1 2) := by decide

/-! ### One step of each instruction -/

/-- T-D1 -/
theorem test_cls :
    runs 0x00E0 (lit 3 3 State.reset) (fun t => (t.disp, t.dc)) =
      some (displayClear, true) := by decide

/-- T-C4 -/
theorem test_ret :
    runs 0x00EE (left State.reset (exec (.call 0x400#12) (State.reset.setPc 0x202#16))) (fun t => (t.pc, t.sp, t.stack[0])) =
      some (0x202#16, 0, 0x202#16) := by decide

/-- T-C5 -/
theorem test_ret_empty :
    runs 0x00EE State.reset (fun t => (t.result, t.pc, t.ir, t.sp)) =
      some (.error .stackUnderflow, 0x202#16, 0x00EE#16, 0) := by decide

/-- T-C1, scenario 1 (S1) -/
theorem test_jp :
    runs 0x1232 State.reset (fun t => (t.pc, t.ir)) =
      some (0x232#16, 0x1232#16) := by decide

/-- T-C2 -/
theorem test_jp_odd :
    runs 0x1201 State.reset (fun t => t.pc) =
      some 0x201#16 := by decide

/-- T-C3, scenario 2 (S2) -/
theorem test_call :
    runs 0x2400 State.reset (fun t => (t.pc, t.sp, t.stack[0])) =
      some (0x400#16, 1, 0x202#16) := by decide

/-- T-C6 -/
theorem test_call_full :
    runs 0x2400 (State.reset.setSp 16) (fun t => (t.result, t.pc, t.sp, t.stack)) =
      some (.error .stackOverflow, 0x202#16, 16, Vector.replicate 16 0#16) := by decide

/-- T-C9 -/
theorem test_seByte :
    runs 0x332A (regs [(3, 0x2A#8)] State.reset) (fun t => t.pc) =
      some 0x204#16 := by decide

/-- T-C24 -/
theorem test_seByte_at_the_end :
    runs 0x3F00 (State.reset.setPc 0xFFE#16) (fun t => t.pc) =
      some 0x1002#16 := by decide

/-- T-C11 -/
theorem test_sneByte :
    runs 0x432A (regs [(3, 0x2A#8)] State.reset) (fun t => t.pc) =
      some 0x202#16 := by decide

/-- T-C12 -/
theorem test_sneByte_taken :
    runs 0x4300 (regs [(3, 0x2A#8)] State.reset) (fun t => t.pc) =
      some 0x204#16 := by decide

/-- T-C13 -/
theorem test_seReg :
    runs 0x5120 (regs [(1, 0x07#8), (2, 0x07#8)] State.reset) (fun t => t.pc) =
      some 0x204#16 := by decide

/-- T-C14 -/
theorem test_seReg_not :
    runs 0x5120 (regs [(1, 0x07#8), (2, 0x08#8)] State.reset) (fun t => t.pc) =
      some 0x202#16 := by decide

/-- T-C16 -/
theorem test_sneReg :
    runs 0x9120 (regs [(1, 0x07#8), (2, 0x07#8)] State.reset) (fun t => t.pc) =
      some 0x202#16 := by decide

/-- T-C17 -/
theorem test_sneReg_taken :
    runs 0x9120 (regs [(1, 0x07#8), (2, 0x08#8)] State.reset) (fun t => t.pc) =
      some 0x204#16 := by decide

/-- T-C21 -/
theorem test_jpV0 :
    runs 0xB300 (regs [(0, 0x04#8), (3, 0x50#8)] State.reset) (fun t => t.pc) =
      some 0x304#16 := by decide

/-- T-C23 -/
theorem test_jpV0_wide :
    runs 0xBFFF (regs [(0, 0xFF#8)] State.reset) (fun t => t.pc) =
      some 0x10FE#16 := by decide

/-- T-A1 -/
theorem test_ldByte :
    runs 0x6FAB State.reset (fun t => (t.reg 0xF, t.pc, t.result)) =
      some (0xAB#8, 0x202#16, .ok) := by decide

/-- T-A2 -/
theorem test_addByte :
    runs 0x71FF (regs [(1, 0x01#8), (15, 0x07#8)] State.reset) (fun t => (t.reg 1, t.reg 0xF)) =
      some (0x00#8, 0x07#8) := by decide

/-- T-A3 -/
theorem test_addByte_vf :
    runs 0x7FFF (regs [(15, 0x02#8)] State.reset) (fun t => t.reg 0xF) =
      some 0x01#8 := by decide

/-- T-A4 -/
theorem test_ldReg :
    runs 0x83F0 (regs [(15, 0xAB#8)] State.reset) (fun t => (t.reg 3, t.reg 0xF)) =
      some (0xAB#8, 0xAB#8) := by decide

/-- T-A4a -/
theorem test_orReg :
    runs 0x8121 (regs [(1, 0xF0#8), (2, 0x0F#8), (15, 0x09#8)] State.reset) (fun t => (t.reg 1, t.reg 2, t.reg 0xF)) =
      some (0xFF#8, 0x0F#8, 0x09#8) := by decide

/-- T-A4b -/
theorem test_andReg :
    runs 0x8122 (regs [(1, 0xF3#8), (2, 0x3C#8), (15, 0x09#8)] State.reset) (fun t => (t.reg 1, t.reg 2, t.reg 0xF)) =
      some (0x30#8, 0x3C#8, 0x09#8) := by decide

/-- T-A4c -/
theorem test_xorReg :
    runs 0x8123 (regs [(1, 0xFF#8), (2, 0x0F#8), (15, 0x09#8)] State.reset) (fun t => (t.reg 1, t.reg 2, t.reg 0xF)) =
      some (0xF0#8, 0x0F#8, 0x09#8) := by decide

/-- T-A4e, scenario 3 (S3) -/
theorem test_addReg :
    runs 0x8014 (regs [(0, 0xFF#8), (1, 0x03#8)] State.reset) (fun t => (t.reg 0, t.reg 1, t.reg 0xF)) =
      some (0x02#8, 0x03#8, 0x01#8) := by decide

/-- T-A6 -/
theorem test_addReg_y_is_vf :
    runs 0x81F4 (regs [(1, 0x10#8), (15, 0x20#8)] State.reset) (fun t => (t.reg 1, t.reg 0xF)) =
      some (0x10#8, 0x00#8) := by decide

/-- T-A13 -/
theorem test_subReg_equal :
    runs 0x8125 (regs [(1, 0x33#8), (2, 0x33#8), (15, 0x01#8)] State.reset) (fun t => (t.reg 1, t.reg 0xF)) =
      some (0x00#8, 0x00#8) := by decide

/-- T-A16 -/
theorem test_subReg_x_is_vf :
    runs 0x8F15 (regs [(15, 0x10#8), (1, 0x05#8)] State.reset) (fun t => (t.reg 0xF, t.reg 1)) =
      some (0xFC#8, 0x05#8) := by decide

/-- T-A19 -/
theorem test_shrReg :
    runs 0x8126 (regs [(1, 0xAA#8), (2, 0x05#8)] State.reset) (fun t => (t.reg 1, t.reg 2, t.reg 0xF)) =
      some (0x02#8, 0x05#8, 0x01#8) := by decide

/-- T-A22 -/
theorem test_shrReg_y_is_vf :
    runs 0x81F6 (regs [(1, 0xAA#8), (15, 0x03#8)] State.reset) (fun t => (t.reg 1, t.reg 0xF)) =
      some (0x01#8, 0x01#8) := by decide

/-- T-A26 -/
theorem test_subnReg :
    runs 0x8127 (regs [(1, 0x10#8), (2, 0x01#8)] State.reset) (fun t => (t.reg 1, t.reg 2, t.reg 0xF)) =
      some (0xF1#8, 0x01#8, 0x00#8) := by decide

/-- T-A30 -/
theorem test_subnReg_x_is_vf :
    runs 0x8F17 (regs [(15, 0x05#8), (1, 0x10#8)] State.reset) (fun t => (t.reg 0xF, t.reg 1)) =
      some (0x0F#8, 0x10#8) := by decide

/-- T-A33 -/
theorem test_shlReg :
    runs 0x812E (regs [(2, 0x81#8)] State.reset) (fun t => (t.reg 1, t.reg 2, t.reg 0xF)) =
      some (0x02#8, 0x81#8, 0x01#8) := by decide

/-- T-A37 -/
theorem test_shlReg_x_is_vf :
    runs 0x8F1E (regs [(1, 0x80#8)] State.reset) (fun t => (t.reg 0xF, t.reg 1)) =
      some (0x02#8, 0x80#8) := by decide

/-- T-A41 with the byte given, T-A40 with any byte. -/
theorem test_rnd_masks :
    (rndWith 0xA5#8 3 0xF0#8 (regs [(3, 0x77#8)] State.reset)).reg 3 = 0xA0#8 ∧
      ∀ r : Byte, (rndWith r 3 0x00#8 (regs [(3, 0x77#8)] State.reset)).reg 3 = 0x00#8 := by decide

/-- R133: one draw is consumed. -/
theorem test_rnd_draws : runs 0xC3FF State.reset (fun t => (t.draws, t.pc, t.result)) =
    some (1, 0x202#16, .ok) := by decide

/-- T-M1 -/
theorem test_ldI :
    runs 0xAFFF State.reset (fun t => t.i) =
      some 0xFFF#16 := by decide

/-- T-M2 -/
theorem test_addI :
    runs 0xF11E (regs [(1, 0x01#8), (15, 0x07#8)] (State.reset.setI 0xFFF#16)) (fun t => (t.i, t.reg 0xF)) =
      some (0x1000#16, 0x07#8) := by decide

/-- T-M3 -/
theorem test_addI_wraps :
    runs 0xF11E (regs [(1, 0x01#8)] (State.reset.setI 0xFFFF#16)) (fun t => t.i) =
      some 0#16 := by decide

/-- T-M4 -/
theorem test_ldF :
    runs 0xF429 (regs [(4, 0x0A#8)] State.reset) (fun t => t.i) =
      some 0x32#16 := by decide

/-- T-M7 -/
theorem test_ldF_whole_byte :
    runs 0xF429 (regs [(4, 0xFF#8)] State.reset) (fun t => t.i) =
      some 0x4FB#16 := by decide

/-- T-M11 -/
theorem test_ldB :
    runs 0xF533 (regs [(5, 0x9C#8)] (State.reset.setI 0x300#16)) (fun t => (t.readBytes 0x300 3, t.i)) =
      some ([1#8, 5#8, 6#8], 0x300#16) := by decide

/-- T-M14 -/
theorem test_ldB_beyond :
    runs 0xF533 (regs [(5, 0x7B#8)] (State.reset.setI 0xFFE#16)) (fun t => (t.result, t.readBytes 0xFFE 2, t.pc, t.ir)) =
      some (.error .memoryOutOfRange, [0#8, 0#8], 0x202#16, 0xF533#16) := by decide

/-- T-M15 -/
theorem test_stRegs :
    runs 0xF255 (regs [(0, 0x11#8), (1, 0x22#8), (2, 0x33#8), (3, 0x44#8)] (State.reset.setI 0x400#16)) (fun t => (t.readBytes 0x400 4, t.i)) =
      some ([0x11#8, 0x22#8, 0x33#8, 0x00#8], 0x403#16) := by decide

/-- T-M16 -/
theorem test_stRegs_last_byte :
    runs 0xF055 (regs [(0, 0x11#8)] (State.reset.setI 0xFFF#16)) (fun t => (t.byte 0xFFF, t.i, t.result)) =
      some (0x11#8, 0x1000#16, .ok) := by decide

/-- T-M18 -/
theorem test_ldRegs :
    runs 0xF165 (regs [(2, 0x99#8)] (bytes 0x400 [0xAB#8, 0xCD#8, 0xEF#8] (State.reset.setI 0x400#16))) (fun t => (t.reg 0, t.reg 1, t.reg 2, t.i)) =
      some (0xAB#8, 0xCD#8, 0x99#8, 0x402#16) := by decide

/-- T-D2 -/
theorem test_drw_collision :
    runs 0xD011 (bytes 0x300 [0xF0#8] (lit 3 0 (State.reset.setI 0x300#16))) (fun t => (displayRow t.disp 0, t.reg 0xF, t.dc)) =
      some (0xE000000000000000#64, 0x01#8, true) := by decide

/-- T-D7 -/
theorem test_drw_clips :
    runs 0xD012 (regs [(0, 0x3C#8), (1, 0x1F#8)] (bytes 0x300 [0xFF#8, 0xFF#8] (State.reset.setI 0x300#16))) (fun t => (displayRow t.disp 31, displayRow t.disp 0, t.reg 0xF)) =
      some (0xF#64, 0#64, 0x00#8) := by decide

/-- T-K1 -/
theorem test_skp :
    runs 0xE29E (regs [(2, 0x05#8)] (pressed 5#8 State.reset)) (fun t => t.pc) =
      some 0x204#16 := by decide

/-- T-K5 -/
theorem test_skp_bad_index :
    runs 0xE29E (regs [(2, 0x10#8)] State.reset) (fun t => (t.result, t.pc, t.ir)) =
      some (.error .invalidKeyIndex, 0x202#16, 0xE29E#16) := by decide

/-- T-K3 -/
theorem test_sknp :
    runs 0xE2A1 (regs [(2, 0x05#8)] (pressed 5#8 State.reset)) (fun t => t.pc) =
      some 0x202#16 := by decide

/-- T-K4 -/
theorem test_sknp_taken :
    runs 0xE2A1 (regs [(2, 0x05#8)] State.reset) (fun t => t.pc) =
      some 0x204#16 := by decide

/-- T-K11, third step -/
theorem test_ldVxK_captures :
    runs 0xF30A (pressed 2#8 (pressed 7#8 (State.reset.setWait .armed))) (fun t => (t.result, t.wait, t.reg 3, t.pc, t.ir)) =
      some (.retry, .keySeen, 0x02#8, 0x200#16, 0xF30A#16) := by decide

/-- T-K12, after the release -/
theorem test_ldVxK_armed_stays :
    runs 0xF30A (State.reset.setWait .armed) (fun t => (t.result, t.wait, t.reg 3, t.pc)) =
      some (.retry, .armed, 0x00#8, 0x200#16) := by decide

/-- T-T1 -/
theorem test_ldVxDt :
    runs 0xFB07 (State.reset.setDt 0x04#8) (fun t => (t.reg 0xB, t.dt)) =
      some (0x04#8, 0x04#8) := by decide

/-- T-T2 -/
theorem test_ldDtVx :
    runs 0xFA15 (regs [(10, 0x05#8)] State.reset) (fun t => (t.dt, t.st)) =
      some (0x05#8, 0x00#8) := by decide

/-- T-T3 -/
theorem test_ldStVx :
    runs 0xFA18 (regs [(10, 0x05#8)] State.reset) (fun t => (t.st, t.dt, soundActive t)) =
      some (0x05#8, 0x00#8, true) := by decide

/-! ### The end of a run -/

/-- R97: two bytes that are no jump to themselves do not end a run (T-C1 jumps elsewhere), nor does a PC above 0xFFE. -/
theorem test_runEnded_not :
    runEnded (bytes 0x200 [0x12#8, 0x32#8] State.reset) = false ∧ runEnded (State.reset.setPc 0x1200#16) = false := by decide

/-- R97, R122: 603C, then a jump to itself at 0x202. -/
theorem test_runToEnd :
    (fun t => (t.pc, t.reg 0)) (runToEnd 3 (bytes 0x200 [0x60#8, 0x3C#8, 0x12#8, 0x02#8] State.reset)) =
      (0x202#16, 0x3C#8) := by decide

/-! ### The font, a parameter -/

/-- R142 with the font of 95_test_vectors.md's informative example: the glyph 7 at FX29's address. -/
theorem test_font_default : State.reset.readBytes 0x23 5 = [0xF0#8, 0x10#8, 0x20#8, 0x40#8, 0x40#8] := by decide

/-- R6: another font (all bytes 1) is read and, after a store over it and a reset, read again. -/
theorem test_font_other :
    (State.resetWith (Vector.replicate 80 1#8)).readBytes 0x4E 4 = [1#8, 1#8, 0#8, 0#8] ∧
      (resetEvent (bytes 0x000 [7#8] (State.resetWith (Vector.replicate 80 1#8)))).readBytes 0 2 = [1#8, 1#8] := by decide

/-! ### Errors of the step and host events -/

/-- T-X2 -/
theorem test_step_unrecognized :
    runs 0x00E1 (lit 3 3 State.reset) (fun t => (t.result, t.pc, t.ir, t.dc, displayCell t.disp 3 3)) =
      some (.error .unrecognizedOpcode, 0x202#16, 0x00E1#16, false, true) := by decide

/-- T-X3: the fault, and the event's result with nothing changed. -/
theorem test_fetch_beyond :
    faultOf (step (State.reset.setPc 0xFFF#16)) = some .fetchOutOfRange ∧
      applyEvent .step (State.reset.setPc 0xFFF#16) =
        (State.reset.setPc 0xFFF#16, .result (.error .fetchOutOfRange)) := by decide

/-- T-X1, R227: from reset with nothing loaded. -/
theorem test_step_from_reset :
    left State.reset (step State.reset) = (State.reset.setPc 0x202#16).setResult (.error .unrecognizedOpcode) := by decide

/-- T-T4, T-T5. -/
theorem test_tick :
    ((tick ((State.reset.setDt 2#8).setSt 1#8)).dt, (tick ((State.reset.setDt 2#8).setSt 1#8)).st) = (1#8, 0#8) ∧
      (tick ((State.reset.setDt 1#8).setSt 0#8)).st = 0#8 := by decide

/-- T-K8, T-K10. -/
theorem test_keys :
    (keyPress 4#8 State.reset).1.key 4 = true ∧ (keyRelease 4#8 (keyPress 4#8 State.reset).1).1 = State.reset := by decide

/-- T-K9. -/
theorem test_key_index : keyPress 16#8 State.reset = (State.reset, .error .invalidKeyIndex) := by decide

/-- R190. -/
theorem test_load :
    (load [0x12#8, 0x32#8] State.reset).1.readBytes 0x1FF 4 = [0x00#8, 0x12#8, 0x32#8, 0x00#8] := by decide

/-- T-X7, scenario 4 (S4): 4096 bytes are too many. -/
theorem test_load_too_large :
    load (List.replicate 4096 0xAA#8) State.reset = (State.reset, .error .loadTooLarge) := by
  unfold load; rw [if_neg (by rw [List.length_replicate]; decide)]

/-- T-X8. -/
theorem test_display_read :
    displayRead ((lit 3 3 State.reset).setDc true) = (lit 3 3 State.reset, (lit 3 3 State.reset).disp, true) := by decide

/-- T-X9: a loaded program is erased. -/
theorem test_reset_event : (applyEvent .reset (bytes 0x200 [0x12#8, 0x32#8] (State.reset.setPc 0x300#16))).1 = State.reset := by
  decide

/-- T-X10. -/
theorem test_debug_index :
    applyEvent (.debugReg 16) State.reset = (State.reset, .result (.error .invalidRegisterIndex)) := by decide

/-- R200: the codes 1 to 8. -/
theorem test_error_codes :
    [ErrorKind.unrecognizedOpcode, .stackOverflow, .stackUnderflow, .loadTooLarge, .invalidKeyIndex, .invalidRegisterIndex,
      .fetchOutOfRange, .memoryOutOfRange].map ErrorKind.code = [1, 2, 3, 4, 5, 6, 7, 8] := by decide

/-! ### Witnesses: concrete states and operands that meet the hypotheses of a statement, at the ends of their ranges -/

theorem witness_EncodedInstructionsDecodeBack :
    (Instr.drw 0xF 0xF 15).wellFormed = true ∧ (Instr.jp 0xFFF#12).wellFormed = true := by decide

theorem witness_DecodedWordsEncodeBack : decodeWord 0xDFFF#16 = .ok (.drw 0xF 0xF 15) := by decide

theorem witness_DecoderFollowsTheOpcodeMap :
    opcodeTable.any (fun r => r.selects 0xDFFF#16 && decide (r.build 0xDFFF#16 = .drw 0xF 0xF 15)) = true := by decide

theorem witness_UnrecognizedWordsAreTheTable :
    decodeWord 0x0FFF#16 = .error (.unrecognizedOpcode 0x0FFF#16) ∧
    decodeWord 0x500F#16 = .error (.unrecognizedOpcode 0x500F#16) ∧
    decodeWord 0x8008#16 = .error (.unrecognizedOpcode 0x8008#16) ∧
    decodeWord 0x9001#16 = .error (.unrecognizedOpcode 0x9001#16) ∧
    decodeWord 0xEFA2#16 = .error (.unrecognizedOpcode 0xEFA2#16) ∧
    decodeWord 0xFF66#16 = .error (.unrecognizedOpcode 0xFF66#16) := by decide

theorem witness_FetchReadsTwoBytesBigEndian :
    (State.reset.setPc 0#16).pc.toNat ≤ 0xFFE ∧ (State.reset.setPc 0xFFE#16).pc.toNat ≤ 0xFFE := by decide

/-- A jump at the last address a step can fetch from. -/
def jumpAtEnd : State := bytes 0xFFE [0x12#8, 0x32#8] (State.reset.setPc 0xFFE#16)

theorem witness_StepRunsDecodedInstruction :
    jumpAtEnd.pc.toNat ≤ 0xFFE ∧ decodeWord (opcodeAt jumpAtEnd jumpAtEnd.pc.toNat) = .ok (.jp 0x232#12) := by decide

theorem witness_UnrecognizedOpcodeOnlyAdvances :
    State.reset.pc.toNat ≤ 0xFFE ∧
      decodeWord (opcodeAt State.reset State.reset.pc.toNat) = .error (.unrecognizedOpcode 0x0000#16) := by decide

theorem witness_StepStopsExactlyBeyondMemory :
    0xFFE < (State.reset.setPc 0xFFF#16).pc.toNat ∧ (State.reset.setPc 0xFFE#16).pc.toNat ≤ 0xFFE := by decide

theorem witness_ErrorsComeBeforeAnyWrite :
    exec .ret State.reset = .next (State.reset.setResult (.error .stackUnderflow)) ∧
      (State.reset.setResult (.error .stackUnderflow)).result = .error .stackUnderflow := ⟨rfl, rfl⟩

theorem witness_SkipsComparingRegisters : (0x1#4 : Nibble) ≠ 0x0#4 ∧ (0xF#4 : Nibble) ≠ 0x0#4 := by decide

theorem witness_CallPushesAndJumps : State.reset.sp.val < 16 ∧ (State.reset.setSp 15).sp.val < 16 := by decide

theorem witness_ReturnPopsIntoPc :
    (State.reset.setSp 1).sp.val = (0 : Fin 16).val + 1 ∧ (State.reset.setSp 16).sp.val = (15 : Fin 16).val + 1 := by decide

theorem witness_StackErrorsChangeNothing : (State.reset.setSp 16).sp.val = 16 ∧ State.reset.sp.val = 0 := by decide

/-- A call with one slot left. -/
def calling : State := (State.reset.setSp 15).setPc 0x202#16

/-- What it leaves. -/
def called : State := left calling (exec (.call 0x400#12) calling)

theorem witness_ReturnUndoesCall :
    calling.sp.val < 16 ∧ exec (.call 0x400#12) calling = .next called ∧
      (regs [(0, 0xFF#8)] called).stack = called.stack ∧ (regs [(0, 0xFF#8)] called).sp = called.sp :=
  ⟨by decide, next_left (by decide), by decide, by decide⟩

theorem witness_AddSetsCarryThenSum : (0xE : Reg) ≠ vf ∧ (0xF : Reg) = vf := by decide

theorem witness_SubtractionsSetStrictFlagThenDifference : (0 : Reg) ≠ vf ∧ (0xF : Reg) = vf := by decide

theorem witness_ShiftsMoveTheCopyOfVy : (0xE : Reg) ≠ vf ∧ (0xF : Reg) = vf := by decide

theorem witness_DecimalDigitsAreStored :
    (State.reset.setI 0xFFD#16).i.toNat + 2 ≤ 0xFFF ∧ State.reset.i.toNat + 2 ≤ 0xFFF := by decide

theorem witness_RegistersAreStored :
    (State.reset.setI 0xFF0#16).i.toNat + (0xF : Reg).val ≤ 0xFFF ∧
      (State.reset.setI 0xFFF#16).i.toNat + (0 : Reg).val ≤ 0xFFF := by decide

theorem witness_RegistersAreLoaded :
    (State.reset.setI 0xFF0#16).i.toNat + (0xF : Reg).val ≤ 0xFFF ∧
      (State.reset.setI 0xFFF#16).i.toNat + (0 : Reg).val ≤ 0xFFF := by decide

/-- Registers to store, `I` at the next instruction. -/
def storing : State := regs [(0, 0x12#8), (1, 0x34#8)] ((State.reset.setI 0x202#16).setPc 0x202#16)

/-- What FX55 leaves of it. -/
def stored : State := left storing (exec (.stRegs 1) storing)

theorem witness_StoreThenLoadRestoresRegisters :
    storing.i.toNat + (1 : Reg).val ≤ 0xFFF ∧ (0x202#12 : Addr12).toNat = storing.i.toNat ∧
      exec (.stRegs 1) storing = .next stored ∧ MemKept stored (regs [(0, 0xFF#8)] stored) :=
  ⟨by decide, by decide, next_left (by decide), fun _ => rfl⟩

theorem witness_AccessBeyondMemoryChangesNothing :
    0xFFF < (State.reset.setI 0xFFE#16).i.toNat + 2 ∧
    0xFFF < (State.reset.setI 0xFF1#16).i.toNat + (0xF : Reg).val ∧
    (0 < 2 ∧ 0xFFF < (State.reset.setI 0xFFF#16).i.toNat + min 2 (32 - (State.reset.reg 1).toNat % 32) - 1) ∧
    (0 < 15 ∧ 0xFFF < (regs [(1, 0x1F#8)] (State.reset.setI 0x1000#16)).i.toNat +
      min 15 (32 - ((regs [(1, 0x1F#8)] (State.reset.setI 0x1000#16)).reg 1).toNat % 32) - 1) := by decide

theorem witness_StoredOpcodeIsFetchedNext :
    exec (.stRegs 1) storing = .next stored ∧ storing.i.toNat + (1 : Reg).val ≤ 0xFFF ∧
      (1 : Reg).val = (0 : Reg).val + 1 ∧ (1 : Reg).val ≤ (1 : Reg).val ∧
      storing.pc.toNat = effAddr storing (0 : Reg).val :=
  ⟨next_left (by decide), by decide⟩

theorem witness_CanonicalMemoriesReadingAlikeAreEqual :
    memWf fontDefault [(0x000, 0x00#8), (0xFFF, 0x01#8)] ∧
      ∀ a, memRead fontDefault [(0x000, 0x00#8), (0xFFF, 0x01#8)] a =
        memRead fontDefault [(0x000, 0x00#8), (0xFFF, 0x01#8)] a :=
  ⟨by decide, fun _ => rfl⟩

/-- A sprite byte of ones at the last address, drawn at the corner (63, 31). -/
def drawing : State := regs [(0, 0x3F#8), (1, 0x1F#8)] (bytes 0xFFF [0xFF#8] (State.reset.setI 0xFFF#16))

/-- After the first draw. -/
def drawn : State := left drawing (exec (.drw 0 1 15) drawing)

/-- After the second draw. -/
def drawnTwice : State := left drawn (exec (.drw 0 1 15) drawn)

theorem witness_DrawFlipsCellsAndReportsCollision :
    ((0 : Nat) = 0 ∨ drawing.i.toNat + min 0 (32 - (drawing.reg 1).toNat % 32) - 1 ≤ 0xFFF) ∧
    drawing.i.toNat + min 15 (32 - (drawing.reg 1).toNat % 32) - 1 ≤ 0xFFF ∧
    (spriteOn drawn 0 1 15 63 31 = true ∧ displayCell drawn.disp 63 31 = true) ∧
    (spriteOn drawing 0 1 15 63 31 = true ∧ displayCell drawing.disp 63 31 = false) := by decide

/-- On a display that is clear no cell under the sprite is 1: the premise of the clause for VF = 0. -/
theorem witness_DrawFlipsCellsAndReportsCollision_clear :
    ∀ cx cy, cx < 64 → cy < 32 → spriteOn drawing 0 1 15 cx cy = true → displayCell drawing.disp cx cy = false := by
  intro cx cy _ hy _
  have h : drawing.disp = Vector.replicate 32 0#64 := rfl
  simp [h, displayCell, displayRow, hy]

theorem witness_DrawingTwiceRestoresTheDisplay :
    exec (.drw 0 1 15) drawing = .next drawn ∧ drawn.result = .ok ∧ drawn.reg 0 = drawing.reg 0 ∧
      drawn.reg 1 = drawing.reg 1 ∧ exec (.drw 0 1 15) drawn = .next drawnTwice ∧
      displayCell drawing.disp 63 31 = false ∧ displayCell drawn.disp 63 31 = true :=
  ⟨next_left (by decide), by decide, by decide, by decide, next_left (by decide), by decide⟩

theorem witness_KeySkipsTestTheNamedKey :
    (State.reset.reg 2).toNat = (0 : Fin 16).val ∧ ((regs [(2, 0x0F#8)] State.reset).reg 2).toNat = (15 : Fin 16).val ∧
      15 < ((regs [(2, 0x10#8)] State.reset).reg 2).toNat := by decide

theorem witness_KeyWaitMakesOneTransition :
    State.reset.wait = .idle ∧
    ((pressed 7#8 (State.reset.setWait .armed)).wait = .armed ∧ (pressed 7#8 (State.reset.setWait .armed)).anyKey = true ∧
      (pressed 7#8 (State.reset.setWait .armed)).key 7 = true ∧
      ∀ j : Fin 16, j.val < (7 : Fin 16).val → (pressed 7#8 (State.reset.setWait .armed)).key j = false) ∧
    ((State.reset.setWait .keySeen).wait = .keySeen ∧ (State.reset.setWait .keySeen).anyKey = false) ∧
    ¬ (State.reset.wait = .keySeen ∧ State.reset.anyKey = false) ∧
    ¬ (State.reset.wait = .armed ∧ State.reset.anyKey = true) := by decide

/-- A wait with key 7 down for two executions and up for the third. -/
def waiting1 : State := pressed 7#8 (State.reset.setPc 0x202#16)

/-- The second execution. -/
def waiting2 : State := left waiting1 (exec (.ldVxK 3) waiting1)

/-- The third execution, the key released. -/
def waiting3 : State := (keyRelease 7#8 (left waiting2 (exec (.ldVxK 3) waiting2))).1

theorem witness_KeyWaitTakesThreeExecutions :
    waiting1.wait = .idle ∧ exec (.ldVxK 3) waiting1 = .next waiting2 ∧ waiting2.wait = waiting2.wait ∧
      exec (.ldVxK 3) waiting2 = .next (left waiting2 (exec (.ldVxK 3) waiting2)) ∧
      waiting3.wait = (left waiting2 (exec (.ldVxK 3) waiting2)).wait ∧
      exec (.ldVxK 3) waiting3 = .next (left waiting3 (exec (.ldVxK 3) waiting3)) ∧
      (left waiting3 (exec (.ldVxK 3) waiting3)).result = .ok :=
  ⟨by decide, next_left (by decide), rfl, next_left (by decide), rfl, next_left (by decide), by decide⟩

theorem witness_KeyEventsSetAndClearOneKey : (0x0F#8).toNat < 16 ∧ 15 < (0x10#8).toNat := by decide

theorem witness_LoadCopiesWholeImageOrNothing :
    (List.replicate 3584 0xAA#8).length ≤ 3584 ∧ 0 < (List.replicate 3584 0xAA#8).length ∧
      3584 < (List.replicate 3585 0xAA#8).length := by
  simp only [List.length_replicate]; decide

theorem witness_ReadOutsReportTheState : 15 < 16 := by decide

/-- A full stack of the greatest addresses, PC at the last address a step fetches from, and there a taken skip. -/
def fullStack : State :=
  bytes 0xFFE [0x3F#8, 0x00#8] (((State.reset.setPc 0xFFE#16).setSp 16).setStack (Vector.replicate 16 0x1000#16))

theorem witness_EveryStepKeepsTheInvariant : Inv fullStack ∧ step fullStack = .next (left fullStack (step fullStack)) :=
  ⟨⟨by decide, by decide, by decide⟩, next_left (by decide)⟩

theorem witness_FontIsAParameterOfTheMachine : 79 < 80 ∧ 80 ≤ 80 := by decide

theorem witness_EveryEventSequenceKeepsTheInvariant : Inv (fullStack.setPc 0x10FE#16) := ⟨by decide, by decide, by decide⟩

theorem witness_RegistersChangeOnlyAsNamed : exec (.drw 0 1 15) drawing = .next drawn :=
  next_left (by decide)

theorem witness_EachStateHasItsOwnWriters :
    exec (.call 0x400#12) calling = .next called ∧ called.sp ≠ calling.sp ∧ called.pc ≠ calling.pc ∧
    exec (.stRegs 1) storing = .next stored ∧ stored.mem ≠ storing.mem ∧ stored.i ≠ storing.i ∧
    exec (.drw 0 1 15) drawn = .next drawnTwice ∧ drawnTwice.disp ≠ drawn.disp ∧ drawnTwice.v ≠ drawn.v ∧
    exec (.ldVxK 3) waiting1 = .next waiting2 ∧ waiting2.wait ≠ waiting1.wait :=
  ⟨next_left (by decide), by decide, by decide, next_left (by decide), by decide, by decide, next_left (by decide), by decide,
    by decide, next_left (by decide), by decide⟩

/-- The timers and the draw counter: the other premises of `EachStateHasItsOwnWriters`. -/
theorem witness_EachStateHasItsOwnWriters_timers :
    (left State.reset (exec (.ldDtVx 0) (regs [(0, 1#8)] State.reset))).dt ≠ State.reset.dt ∧
    (left State.reset (exec (.ldStVx 0) (regs [(0, 1#8)] State.reset))).st ≠ State.reset.st ∧
    (left State.reset (exec (.rnd 0 0xFF#8) State.reset)).draws ≠ State.reset.draws := by decide

/-- 00E0 in memory at PC. -/
def clearing : State := bytes 0x200 [0x00#8, 0xE0#8] State.reset

theorem witness_DisplayChangedFlagFollowsDrawing :
    step clearing = .next (left clearing (step clearing)) ∧ (left clearing (step clearing)).dc = true ∧
      decodeWord (left clearing (step clearing)).ir = .ok .cls :=
  ⟨next_left (by decide), by decide⟩

/-- A jump to itself at the reset address. -/
def selfJump : State := bytes 0x200 [0x12#8, 0x00#8] State.reset

theorem witness_SelfJumpChangesOnlyIr :
    selfJump.pc.toNat = (0x200#12 : Addr12).toNat ∧ selfJump.pc.toNat ≤ 0xFFE ∧
      opcodeAt selfJump selfJump.pc.toNat = formatA 0x1#4 0x200#12 := by decide

theorem witness_RunEndsAtASelfJump : runEnded selfJump = true ∧ runEnded State.reset = false := by decide

/-- A jump to itself at the last address a step can fetch from. -/
def selfJumpAtEnd : State := bytes 0xFFE [0x1F#8, 0xFE#8] (State.reset.setPc 0xFFE#16)

theorem witness_EndedRunStaysEnded :
    runEnded selfJumpAtEnd = true ∧ ∀ e ∈ [Event.step, .tick, .keyPress 7#8], e ≠ .reset ∧ ∀ image, e ≠ .load image :=
  ⟨by decide, by simp⟩

theorem witness_RunToEndStopsAtTheFirstEnd : 0 < 1 ∧ runEnded (runToEnd 1 selfJumpAtEnd) = true := by decide

theorem witness_OnlyRandomInstructionSeesTheDraw :
    (∀ x nn, Instr.drw 0 1 15 ≠ .rnd x nn) ∧ exec (.drw 0 1 15) drawing = .next drawn :=
  ⟨(fun _ _ h => nomatch h), next_left (by decide)⟩

end Sys2Proof.Tests
end

section
/-! PROOFS. O55 (00_scope.md R6; 10_state.md R21, R27, R28): the font is a parameter of the machine. What a step and a list of
events can do is said once; the font is then followed through every instruction and every event. -/

namespace Sys2Proof.Machine

/-! ### Steps and events -/

/-- A step that answers a next state fetched, and then ran the instruction it fetched or found none. -/
theorem step_next {s t : State} (h : step s = .next t) :
    ∃ s1, fetch s = some s1 ∧
      ((∃ i, decodeWord s1.ir = .ok i ∧ exec i s1 = .next t) ∨
        (∃ e, decodeWord s1.ir = .error e) ∧ t = s1.setResult (.error .unrecognizedOpcode)) := by
  unfold step at h; split at h
  · simp at h
  · next s1 hf =>
    refine ⟨s1, hf, ?_⟩
    split at h
    · next i hd => exact .inl ⟨i, hd, h⟩
    · next e hd => exact .inr ⟨⟨e, hd⟩, raise_next.mp h⟩

/-- The step event leaves what the step answers, or the state it was given. -/
theorem stepEvent_state (s : State) : step s = .next (stepEvent s).1 ∨ (stepEvent s).1 = s := by
  cases h : step s with
  | next t => rw [stepEvent_of_next h]; exact .inl rfl
  | fault r => unfold stepEvent; rw [h]; exact .inr rfl
  | refused r => unfold stepEvent; rw [h]; exact .inr rfl

/-- What every event keeps, every list of events keeps. -/
theorem runEvents_keeps {P : State → Prop} (h : ∀ e s, P s → P (applyEvent e s).1) (es : List Event) (s : State)
    (hs : P s) : P (runEvents es s) := by
  induction es generalizing s with
  | nil => exact hs
  | cons e es ih => exact ih _ (h e s hs)

/-! ### The reset contents, read -/

@[simp] theorem byte_resetWith (f : Config.Font) (a : Nat) : (State.resetWith f).byte a = resetByte f a := rfl

/-! ### Nothing writes the font -/

@[simp] theorem skipIf_font (s : State) (c : Bool) : (s.skipIf c).font = s.font := by
  rw [State.skipIf_eq, State.setPc_font]

theorem push_font {s t : State} {a : Word} (h : s.push a = some t) : t.font = s.font := by
  obtain ⟨_, rfl⟩ := push_some h; rfl

theorem pop_font {s t : State} {a : Word} (h : s.pop = some (a, t)) : t.font = s.font := by
  obtain ⟨_, _, rfl⟩ := pop_some h; rfl

theorem fetch_font {s s1 : State} (h : fetch s = some s1) : s1.font = s.font := by
  obtain ⟨_, rfl⟩ := fetch_some.mp h; rfl

/-- However an instruction ends, the font stays when the state it ends with holds it. -/
theorem complete_font {s u t : State} (h : complete u = .next t) (hu : u.font = s.font) : t.font = s.font := by
  rw [complete_next.mp h, State.setResult_font, hu]

theorem retry_font {s u t : State} (h : retry u = .next t) (hu : u.font = s.font) : t.font = s.font := by
  rw [retry_next.mp h, State.setResult_font, State.setPc_font, hu]

theorem raise_font {k : ErrorKind} {s t : State} (h : raise k s = .next t) : t.font = s.font := by
  rw [raise_next.mp h, State.setResult_font]

/-- FX0A writes VX and the latch. -/
theorem execLdVxK_font {x : Reg} {s t : State} (h : execLdVxK x s = .next t) : t.font = s.font := by
  unfold execLdVxK at h; split at h
  · exact retry_font h (by split <;> rfl)
  · split at h
    · exact retry_font h rfl
    · exact retry_font h rfl
  · split at h
    · exact retry_font h rfl
    · exact complete_font h rfl

/-- No instruction writes the font: the skips and the stack through their own lemmas, the checked accesses in both branches,
the rest by what they complete. -/
theorem exec_font {i : Instr} {s t : State} (h : exec i s = .next t) : t.font = s.font := by
  cases i with
  | seByte | sneByte | seReg | sneReg => exact complete_font h (skipIf_font _ _)
  | ret =>
    simp only [exec, execRet] at h; split at h
    · next hp => exact complete_font h ((State.setPc_font _ _).trans (pop_font hp))
    · exact raise_font h
  | call nnn =>
    simp only [exec, execCall] at h; split at h
    · next hp => exact complete_font h ((State.setPc_font _ _).trans (push_font hp))
    · exact raise_font h
  | skp | sknp =>
    simp only [exec, execSkp, execSknp] at h; split at h
    · exact complete_font h (skipIf_font _ _)
    · exact raise_font h
  | drw | ldB | stRegs | ldRegs =>
    simp only [exec, execDrw, execLdB, execStRegs, execLdRegs] at h; split at h
    · exact complete_font h rfl
    · exact raise_font h
  | ldVxK x => exact execLdVxK_font h
  | _ => exact complete_font h rfl

theorem step_font {s t : State} (h : step s = .next t) : t.font = s.font := by
  obtain ⟨s1, hf, ⟨_, _, he⟩ | ⟨_, ht⟩⟩ := step_next h
  · exact (exec_font he).trans (fetch_font hf)
  · rw [ht, State.setResult_font, fetch_font hf]

theorem stepEvent_font (s : State) : (stepEvent s).1.font = s.font := by
  rcases stepEvent_state s with h | h
  · exact step_font h
  · rw [h]

theorem setKey_font (k : Byte) (pressed : Bool) (s : State) : (setKey k pressed s).1.font = s.font := by
  unfold setKey; split <;> rfl

theorem load_font (image : List Byte) (s : State) : (load image s).1.font = s.font := by
  unfold load; split <;> rfl

/-- No event writes the font: a reset builds the machine with the font it had. -/
theorem applyEvent_font (e : Event) (s : State) : (applyEvent e s).1.font = s.font := by
  cases e with
  | step => exact stepEvent_font s
  | keyPress k => exact setKey_font k true s
  | keyRelease k => exact setKey_font k false s
  | load image => exact load_font image s
  | debugReg index => unfold applyEvent; dsimp only; split <;> rfl
  | _ => rfl

/-- Settles O55: memory lists nothing after reset, so it reads as the reset contents; no event writes the font. -/
theorem fontIsAParameterOfTheMachine : Obligations.FontIsAParameterOfTheMachine := by
  refine ⟨fun f a h => ?_, fun f a h => ?_, fun es s => ?_⟩
  · rw [byte_resetWith, resetByte_font f a h]
  · rw [byte_resetWith, resetByte_above f a h]
  · exact runEvents_keeps (P := fun t => t.font = s.font) (fun e t ht => (applyEvent_font e t).trans ht) es s rfl

end Sys2Proof.Machine
end

section
/-! PROOFS. O46 to O50 and O53 (10_state.md R11 to R29): the invariant, and which instruction writes which state. What an
instruction can leave is said once, `Effect`, with the values the invariant needs; the registers an instruction writes, each
state's writers and the invariant's step are case analyses of it. -/

namespace Sys2Proof.Machine

/-! ### What an instruction can leave -/

/-- The six skips (41_control_flow.md R104 to R107, 45_keypad.md R166, R167). -/
inductive IsSkip : Instr → Prop where
  | seByte (x : Reg) (nn : Byte) : IsSkip (.seByte x nn)
  | sneByte (x : Reg) (nn : Byte) : IsSkip (.sneByte x nn)
  | seReg (x y : Reg) : IsSkip (.seReg x y)
  | sneReg (x y : Reg) : IsSkip (.sneReg x y)
  | skp (x : Reg) : IsSkip (.skp x)
  | sknp (x : Reg) : IsSkip (.sknp x)

/-- The states an instruction run in `s` can leave, one constructor per set of fields written: PC, the stack, `I` and memory
with their values, the register file by what it keeps, and the display by being written at all. -/
inductive Effect (s : State) : Instr → State → Prop where
  | raises {i : Instr} {k : ErrorKind} (hk : errorOf i = some k) : Effect s i (s.setResult (.error k))
  | clears : Effect s .cls (((s.setDisp displayClear).setDc true).setResult .ok)
  | returns {a : Word} {s1 : State} (hp : s.pop = some (a, s1)) : Effect s .ret ((s1.setPc a).setResult .ok)
  | jumps (nnn : Addr12) : Effect s (.jp nnn) ((s.setPc (addrWord nnn)).setResult .ok)
  | jumpsV0 (nnn : Addr12) :
      Effect s (.jpV0 nnn) ((s.setPc (add16 (addrWord nnn) (regWord s 0))).setResult .ok)
  | calls {nnn : Addr12} {s1 : State} (hp : s.push s.pc = some s1) :
      Effect s (.call nnn) ((s1.setPc (addrWord nnn)).setResult .ok)
  | skips {i : Instr} (hi : IsSkip i) (c : Bool) : Effect s i ((s.skipIf c).setResult .ok)
  | setsRegs {i : Instr} {v : Vector Byte 16} (hv : RegsKeptBut (destRegs i) s (s.setV v)) :
      Effect s i ((s.setV v).setResult .ok)
  | randomizes (x : Reg) (nn b : Byte) :
      Effect s (.rnd x nn) (((s.setDraws (s.draws + 1)).setReg x b).setResult .ok)
  | setsI (nnn : Addr12) : Effect s (.ldI nnn) ((s.setI (addrWord nnn)).setResult .ok)
  | addsToI (x : Reg) : Effect s (.addI x) ((s.setI (add16 s.i (regWord s x))).setResult .ok)
  | pointsAtDigit (x : Reg) : Effect s (.ldF x) ((s.setI (Config.fontBase + mul5 (s.reg x))).setResult .ok)
  | storesDigits {x : Reg} (hf : accessFits s 3 = true) :
      Effect s (.ldB x) ((s.writeBytes (effAddr s 0) (bcd (s.reg x))).setResult .ok)
  | storesRegs {x : Reg} (hf : accessFits s (x.val + 1) = true) :
      Effect s (.stRegs x)
        ((bumpI (s.writeBytes (effAddr s 0) (regBytes s (x.val + 1))) (x.val + 1)).setResult .ok)
  | loadsRegs {x : Reg} {v : Vector Byte 16} (hv : RegsKeptBut (destRegs (.ldRegs x)) s (s.setV v)) :
      Effect s (.ldRegs x) ((bumpI (s.setV v) (x.val + 1)).setResult .ok)
  | draws (x y : Reg) (n : Nat) (b : Byte) (d : Display) :
      Effect s (.drw x y n) ((((s.setReg vf b).setDisp d).setDc true).setResult .ok)
  | setsDt (x : Reg) : Effect s (.ldDtVx x) ((s.setDt (s.reg x)).setResult .ok)
  | setsSt (x : Reg) : Effect s (.ldStVx x) ((s.setSt (s.reg x)).setResult .ok)
  | waits {x : Reg} {v : Vector Byte 16} (hv : RegsKeptBut [x] s (s.setV v)) (w : WaitLatch) :
      Effect s (.ldVxK x) ((((s.setV v).setWait w).setPc (s.pc - 2#16)).setResult .retry)
  | stopsWaiting (x : Reg) : Effect s (.ldVxK x) ((s.setWait .idle).setResult .ok)

theorem regsKeptBut_refl (xs : List Reg) (s : State) : RegsKeptBut xs s s := fun _ _ => rfl

theorem regsKeptBut_setReg (s : State) (x : Reg) (b : Byte) : RegsKeptBut [x] s (s.setReg x b) :=
  fun _ hr => State.reg_setReg_ne s b (List.ne_of_not_mem_cons hr)

theorem regsKeptBut_flagThenResult (f : State → Byte × Bool) (x : Reg) (s : State) :
    RegsKeptBut [x, vf] s (flagThenResult f x s) := by
  intro r hr
  obtain ⟨hx, hf⟩ : r ≠ x ∧ r ≠ vf := by simpa using hr
  rw [reg_flagThenResult, if_neg hx, if_neg hf]

theorem regsKeptBut_copyThenShift (f : Byte → Byte × Bool) (x y : Reg) (s : State) :
    RegsKeptBut [x, vf] s (copyThenShift f x y s) := by
  intro r hr
  obtain ⟨hx, hf⟩ : r ≠ x ∧ r ≠ vf := by simpa using hr
  rw [reg_copyThenShift, if_neg hx, if_neg hf]

theorem regsKeptBut_loadedRegs (s : State) (f : Nat → Byte) (x : Reg) :
    RegsKeptBut (destRegs (.ldRegs x)) s (s.setV (loadedRegs s.v f (x.val + 1))) := by
  intro r hr
  have hx : ¬ r.val < x.val + 1 := by simpa [destRegs, Nat.lt_succ_iff] using hr
  simp [State.reg, getElem_loadedRegs, hx]

/-- For an instruction that completes on a state differing in the register file alone. -/
theorem effect_of_regs {i : Instr} {s u t : State} (h : complete u = .next t) (hu : u = s.setV u.v)
    (hr : RegsKeptBut (destRegs i) s u) : Effect s i t := by
  rw [complete_next.mp h, hu]
  exact .setsRegs (hu ▸ hr)

theorem effect_of_raise {i : Instr} {k : ErrorKind} {s t : State} (h : raise k s = .next t) (hk : errorOf i = some k) :
    Effect s i t := by
  rw [raise_next.mp h]
  exact .raises hk

/-- FX0A waits, whatever the latch, until the keys are released after the capture (45_keypad.md R169). -/
theorem execLdVxK_effect {x : Reg} {s t : State} (h : execLdVxK x s = .next t) : Effect s (.ldVxK x) t := by
  unfold execLdVxK at h; split at h
  · obtain rfl := retry_next.mp h
    split
    · exact .waits (regsKeptBut_refl [x] s) .armed
    · exact .waits (regsKeptBut_refl [x] s) s.wait
  · split at h
    · obtain rfl := retry_next.mp h
      exact .waits (regsKeptBut_setReg s x _) .keySeen
    · obtain rfl := retry_next.mp h
      exact .waits (regsKeptBut_refl [x] s) s.wait
  · split at h
    · obtain rfl := retry_next.mp h
      exact .waits (regsKeptBut_refl [x] s) s.wait
    · obtain rfl := complete_next.mp h
      exact .stopsWaiting x

/-- Whatever an instruction leaves is one of its effects. -/
theorem exec_effect {i : Instr} {s t : State} (h : exec i s = .next t) : Effect s i t := by
  cases i with
  | cls => obtain rfl := complete_next.mp h; exact .clears
  | ret =>
    simp only [exec, execRet] at h; split at h
    · next hp => obtain rfl := complete_next.mp h; exact .returns hp
    · exact effect_of_raise h rfl
  | jp nnn => obtain rfl := complete_next.mp h; exact .jumps nnn
  | jpV0 nnn => obtain rfl := complete_next.mp h; exact .jumpsV0 nnn
  | call nnn =>
    simp only [exec, execCall] at h; split at h
    · next hp => obtain rfl := complete_next.mp h; exact .calls hp
    · exact effect_of_raise h rfl
  | seByte x nn => obtain rfl := complete_next.mp h; exact .skips (.seByte x nn) _
  | sneByte x nn => obtain rfl := complete_next.mp h; exact .skips (.sneByte x nn) _
  | seReg x y => obtain rfl := complete_next.mp h; exact .skips (.seReg x y) _
  | sneReg x y => obtain rfl := complete_next.mp h; exact .skips (.sneReg x y) _
  | skp x =>
    simp only [exec, execSkp] at h; split at h
    · obtain rfl := complete_next.mp h; exact .skips (.skp x) _
    · exact effect_of_raise h rfl
  | sknp x =>
    simp only [exec, execSknp] at h; split at h
    · obtain rfl := complete_next.mp h; exact .skips (.sknp x) _
    · exact effect_of_raise h rfl
  | ldByte x | addByte x | ldReg x | orReg x | andReg x | xorReg x | ldVxDt x =>
    exact effect_of_regs h rfl (regsKeptBut_setReg s x _)
  | addReg x | subReg x | subnReg x => exact effect_of_regs h rfl (regsKeptBut_flagThenResult _ x s)
  | shrReg x y | shlReg x y =>
    exact effect_of_regs h (copyThenShift_eq _ x y s) (regsKeptBut_copyThenShift _ x y s)
  | rnd x nn => obtain rfl := complete_next.mp h; exact .randomizes x nn _
  | ldI nnn => obtain rfl := complete_next.mp h; exact .setsI nnn
  | addI x => obtain rfl := complete_next.mp h; exact .addsToI x
  | ldF x => obtain rfl := complete_next.mp h; exact .pointsAtDigit x
  | ldB x =>
    simp only [exec, execLdB] at h; split at h
    · next hf => obtain rfl := complete_next.mp h; exact .storesDigits hf
    · exact effect_of_raise h rfl
  | stRegs x =>
    simp only [exec, execStRegs] at h; split at h
    · next hf => obtain rfl := complete_next.mp h; exact .storesRegs hf
    · exact effect_of_raise h rfl
  | ldRegs x =>
    simp only [exec, execLdRegs] at h; split at h
    · obtain rfl := complete_next.mp h; exact .loadsRegs (regsKeptBut_loadedRegs s _ x)
    · exact effect_of_raise h rfl
  | drw x y n =>
    simp only [exec, execDrw] at h; split at h
    · obtain rfl := complete_next.mp h; exact .draws x y n _ _
    · exact effect_of_raise h rfl
  | ldDtVx x => obtain rfl := complete_next.mp h; exact .setsDt x
  | ldStVx x => obtain rfl := complete_next.mp h; exact .setsSt x
  | ldVxK x => exact execLdVxK_effect h

/-! ### The writers of each state -/

theorem regsKeptBut_skipIf (xs : List Reg) (s : State) (c : Bool) : RegsKeptBut xs s (s.skipIf c) := by
  rw [State.skipIf_eq]; exact regsKeptBut_refl xs s

/-- Settles O49: the effects that write registers write the destinations. -/
theorem registersChangeOnlyAsNamed : Obligations.RegistersChangeOnlyAsNamed := by
  intro i s t h
  cases exec_effect h with
  | returns hp => obtain ⟨_, _, rfl⟩ := pop_some hp; exact regsKeptBut_refl _ s
  | calls hp => obtain ⟨_, rfl⟩ := push_some hp; exact regsKeptBut_refl _ s
  | skips _ c => exact regsKeptBut_skipIf _ s c
  | setsRegs hv | loadsRegs hv | waits hv => exact hv
  | randomizes x _ b => exact regsKeptBut_setReg s x b
  | draws _ _ _ b => exact regsKeptBut_setReg s vf b
  | _ => exact regsKeptBut_refl _ s

/-- Every register read back alike is the same register file. -/
theorem v_eq_of_regsKept {s t : State} (h : RegsKeptBut [] s t) : t.v = s.v :=
  Vector.ext fun k hk => h ⟨k, hk⟩ List.not_mem_nil

theorem destRegs_ne_nil {i : Instr} {s t : State} (h : exec i s = .next t) (hv : t.v ≠ s.v) : destRegs i ≠ [] :=
  fun hd => hv (v_eq_of_regsKept (hd ▸ registersChangeOnlyAsNamed i s t h))

/-- Settles O50: V by its destinations, every other field by the effects that write it. -/
theorem eachStateHasItsOwnWriters : Obligations.EachStateHasItsOwnWriters := by
  intro i s t h
  have hv := destRegs_ne_nil h
  cases exec_effect h with
  | returns hp => obtain ⟨_, _, rfl⟩ := pop_some hp; simp [DisplayKept]
  | calls hp => obtain ⟨_, rfl⟩ := push_some hp; simp [DisplayKept]
  | skips hi c =>
    rw [State.skipIf_eq]
    cases hi <;> simp [StackKept, DisplayKept]
  | setsRegs | loadsRegs => simpa [StackKept, DisplayKept, bumpI_eq] using hv
  | _ => simp [StackKept, DisplayKept, bumpI_eq, destRegs]

/-! ### The invariant -/

theorem Inv.setPc {s : State} (hs : Inv s) {a : Word} (ha : a.toNat ≤ 0x10FE) : Inv (s.setPc a) :=
  ⟨hs.mem, ha, hs.stack⟩

theorem Inv.setResult {s : State} (hs : Inv s) (r : Result) : Inv (s.setResult r) := ⟨hs.mem, hs.pc, hs.stack⟩

theorem Inv.writeBytes {s : State} (hs : Inv s) {a : Nat} {bs : List Byte} (ha : a + bs.length ≤ Config.memSize) :
    Inv (s.writeBytes a bs) := ⟨writeBytes_wf hs.mem bs ha, hs.pc, hs.stack⟩

theorem Inv.pushed {s t : State} (hs : Inv s) {a : Word} (ha : a.toNat ≤ 0x1000) (hp : s.push a = some t) : Inv t := by
  obtain ⟨hsp, rfl⟩ := push_some hp
  refine ⟨hs.mem, hs.pc, fun j hj => ?_⟩
  have hj : j.val < s.sp.val + 1 := hj
  show (s.stack.set s.sp.val a)[j.val].toNat ≤ 0x1000
  rw [Vector.getElem_set]; split
  · exact ha
  · exact hs.stack j (by omega)

theorem Inv.popped {s t : State} (hs : Inv s) {a : Word} (hp : s.pop = some (a, t)) : Inv t ∧ a.toNat ≤ 0x1000 := by
  obtain ⟨hsp, rfl, rfl⟩ := pop_some hp
  have htop : s.sp.val - 1 < s.sp.val := by omega
  exact ⟨⟨hs.mem, hs.pc, fun j hj => hs.stack j (Nat.lt_trans hj htop)⟩, hs.stack ⟨s.sp.val - 1, by omega⟩ htop⟩

theorem addrWord_le (nnn : Addr12) : (addrWord nnn).toNat ≤ 0xFFF := by
  have := nnn.isLt
  rw [addrWord, BitVec.toNat_setWidth]; omega

/-- BNNN reaches furthest: 0xFFF + 0xFF (10_state.md R29). -/
theorem add16_addrWord_regWord_le (nnn : Addr12) (s : State) (x : Reg) :
    (add16 (addrWord nnn) (regWord s x)).toNat ≤ 0x10FE := by
  have ha := addrWord_le nnn
  have hx := (s.reg x).isLt
  rw [add16, BitVec.toNat_add, regWord, BitVec.toNat_setWidth]; omega

/-- A fetch leaves the invariant and a PC of 2 to 0x1000. -/
theorem fetch_inv {s s1 : State} (hs : Inv s) (hf : fetch s = some s1) :
    Inv s1 ∧ 2 ≤ s1.pc.toNat ∧ s1.pc.toNat ≤ 0x1000 := by
  obtain ⟨hpc, rfl⟩ := fetch_some.mp hf
  have h2 : 2 ≤ (s.pc + 2#16).toNat := by bv_omega
  have hle : (s.pc + 2#16).toNat ≤ 0x1000 := by bv_omega
  exact ⟨⟨hs.mem, hle.trans (by decide), hs.stack⟩, h2, hle⟩

/-- An instruction run after a fetch keeps the invariant. -/
theorem exec_inv {i : Instr} {s t : State} (hs : Inv s) (h2 : 2 ≤ s.pc.toNat) (hpc : s.pc.toNat ≤ 0x1000)
    (h : exec i s = .next t) : Inv t := by
  cases exec_effect h with
  | returns hp =>
    obtain ⟨h1, ha⟩ := hs.popped hp
    exact (h1.setPc (by omega)).setResult _
  | jumps nnn =>
    have := addrWord_le nnn
    exact (hs.setPc (by omega)).setResult _
  | jumpsV0 nnn => exact (hs.setPc (add16_addrWord_regWord_le nnn s 0)).setResult _
  | @calls nnn _ hp =>
    have := addrWord_le nnn
    exact ((hs.pushed hpc hp).setPc (by omega)).setResult _
  | skips _ c =>
    rw [State.skipIf_eq]
    refine (hs.setPc ?_).setResult _
    split
    · bv_omega
    · omega
  | @storesDigits x hf =>
    have := (accessFits_iff s 3).mp hf
    have hin : effAddr s 0 + (bcd (s.reg x)).length ≤ Config.memSize := by
      show s.i.toNat + 3 ≤ 4096
      omega
    exact (hs.writeBytes hin).setResult _
  | @storesRegs x hf =>
    have := (accessFits_iff s _).mp hf
    obtain ⟨hm, hp, hst⟩ : Inv (s.writeBytes (effAddr s 0) (regBytes s (x.val + 1))) :=
      hs.writeBytes (by rw [length_regBytes, effAddr_zero, Config.memSize]; omega)
    exact ⟨hm, hp, hst⟩
  | waits =>
    have hback : (s.pc - 2#16).toNat ≤ 0x10FE := by bv_omega
    exact ⟨hs.mem, hback, hs.stack⟩
  | _ => exact ⟨hs.mem, hs.pc, hs.stack⟩

theorem step_inv {s t : State} (hs : Inv s) (h : step s = .next t) : Inv t := by
  obtain ⟨s1, hf, hx⟩ := step_next h
  obtain ⟨hs1, h2, hpc⟩ := fetch_inv hs hf
  rcases hx with ⟨_, _, he⟩ | ⟨_, rfl⟩
  · exact exec_inv hs1 h2 hpc he
  · exact hs1.setResult _

/-- Settles O47. -/
theorem everyStepKeepsTheInvariant : Obligations.EveryStepKeepsTheInvariant :=
  fun _ _ => step_inv

theorem resetWith_inv (f : Config.Font) : Inv (State.resetWith f) :=
  ⟨memWf_nil, Nat.le_of_ble_eq_true rfl, fun _ hj => absurd hj (Nat.not_lt_zero _)⟩

/-- Settles O46: memory lists nothing, PC is 0x200 and the stack is empty, whatever the font. -/
theorem resetMeetsTheInvariant : Obligations.ResetMeetsTheInvariant :=
  ⟨resetWith_inv fontDefault, resetWith_inv⟩

theorem setKey_inv {s : State} (hs : Inv s) (k : Byte) (pressed : Bool) : Inv (setKey k pressed s).1 := by
  unfold setKey; split
  · exact ⟨hs.mem, hs.pc, hs.stack⟩
  · exact hs

/-- An image of at most 3584 bytes from 0x200 on ends inside memory (47_host_operations.md R190). -/
theorem load_inv {s : State} (hs : Inv s) (image : List Byte) : Inv (load image s).1 := by
  unfold load; split
  · next hlen =>
    have hin : 0x200 + image.length ≤ 4096 := by rw [Config.maxRom] at hlen; omega
    exact hs.writeBytes hin
  · exact hs

theorem applyEvent_inv (e : Event) {s : State} (hs : Inv s) : Inv (applyEvent e s).1 := by
  cases e with
  | reset =>
    have h0 := resetWith_inv s.font
    exact ⟨h0.mem, h0.pc, h0.stack⟩
  | step =>
    rcases stepEvent_state s with h | h
    · exact step_inv hs h
    · exact h.symm ▸ hs
  | tick | displayRead => exact ⟨hs.mem, hs.pc, hs.stack⟩
  | keyPress k => exact setKey_inv hs k true
  | keyRelease k => exact setKey_inv hs k false
  | load image => exact load_inv hs image
  | debugReg index => unfold applyEvent; dsimp only; split <;> exact hs
  | debugRegs | debugI | debugPc | debugStack | debugMem => exact hs

/-- Settles O48: every event keeps the invariant, so every list of events does. -/
theorem everyEventSequenceKeepsTheInvariant : Obligations.EveryEventSequenceKeepsTheInvariant :=
  fun es s hs => runEvents_keeps (fun e _ => applyEvent_inv e) es s hs

/-! ### The result is never read -/

theorem complete_skipIf_setResult (s : State) (r : Result) (c : Bool) :
    complete ((s.setResult r).skipIf c) = complete (s.skipIf c) := by
  rw [State.skipIf_eq, State.skipIf_eq]; rfl

theorem push_setResult (s : State) (r : Result) (a : Word) :
    (s.setResult r).push a = (s.push a).map (·.setResult r) := by
  unfold State.push
  rw [apply_dite (Option.map _)]; rfl

theorem pop_setResult (s : State) (r : Result) :
    (s.setResult r).pop = s.pop.map fun p => (p.1, p.2.setResult r) := by
  unfold State.pop
  rw [apply_dite (Option.map _)]; rfl

theorem keyOfReg_setResult (s : State) (r : Result) (x : Reg) : keyOfReg x (s.setResult r) = keyOfReg x s := rfl

/-- FX0A: the latch and the keys decide, and the result is overwritten once `retry` is moved into the arming branch. -/
theorem execLdVxK_setResult (x : Reg) (s : State) (r : Result) : execLdVxK x (s.setResult r) = execLdVxK x s := by
  simp only [execLdVxK, apply_ite retry]; rfl

/-- No instruction reads the result, and each one overwrites it. -/
theorem exec_setResult (i : Instr) (s : State) (r : Result) : exec i (s.setResult r) = exec i s := by
  cases i with
  | seByte | sneByte | seReg | sneReg => exact complete_skipIf_setResult s r _
  | skp x | sknp x =>
    simp only [exec, execSkp, execSknp, keyOfReg_setResult]
    cases keyOfReg x s with
    | none => rfl
    | some b => exact complete_skipIf_setResult s r _
  | ret =>
    simp only [exec, execRet, pop_setResult]
    cases s.pop <;> rfl
  | call nnn =>
    simp only [exec, execCall, State.setResult_pc, push_setResult]
    cases s.push s.pc <;> rfl
  | ldVxK x => exact execLdVxK_setResult x s r
  | _ => rfl

theorem fetch_setResult (s : State) (r : Result) : fetch (s.setResult r) = (fetch s).map (·.setResult r) := by
  unfold fetch
  rw [show canFetch (s.setResult r) = canFetch s from rfl]
  split <;> rfl

/-- Settles O53: the fetch carries the result along, and the execute phase overwrites it. -/
theorem resultIsNeverRead : Obligations.ResultIsNeverRead := by
  intro s r
  rw [step, step, fetch_setResult]
  cases fetch s with
  | none => rfl
  | some s1 =>
    simp only [Option.map_some, State.setResult_ir]
    cases decodeWord s1.ir with
    | ok i => exact exec_setResult i s1 r
    | error e => rfl

end Sys2Proof.Machine
end

section
/-! PROOFS. O31 and O32 (20_memory.md R41, R45, R52; 60_exceptions.md R212): the checked accesses on each side of their check,
and the bytes a store of registers leaves. -/

namespace Sys2Proof.Machine

/-! ### The checked accesses -/

/-- An access whose last byte lies above 0xFFF does not fit (20_memory.md R45). -/
theorem not_accessFits {s : State} {n : Nat} (hn : 0 < n) (h : 0xFFF < s.i.toNat + n - 1) : ¬ accessFits s n = true := by
  rw [accessFits_iff]; omega

section
variable {s : State} {x y : Reg} {n : Nat}

theorem exec_ldB_of_not_accessFits (h : ¬ accessFits s 3 = true) :
    exec (.ldB x) s = .next (s.setResult (.error .memoryOutOfRange)) := if_neg h

theorem exec_stRegs_of_not_accessFits (h : ¬ accessFits s (x.val + 1) = true) :
    exec (.stRegs x) s = .next (s.setResult (.error .memoryOutOfRange)) := if_neg h

theorem exec_ldRegs_of_not_accessFits (h : ¬ accessFits s (x.val + 1) = true) :
    exec (.ldRegs x) s = .next (s.setResult (.error .memoryOutOfRange)) := if_neg h

theorem exec_drw_of_not_accessFits (h : ¬ accessFits s (drawRows y n s) = true) :
    exec (.drw x y n) s = .next (s.setResult (.error .memoryOutOfRange)) := if_neg h

theorem exec_stRegs_of_accessFits (h : accessFits s (x.val + 1) = true) :
    exec (.stRegs x) s =
      complete (bumpI (s.writeBytes (effAddr s 0) (regBytes s (x.val + 1))) (x.val + 1)) := if_pos h
end

/-- Some row of the sprite is drawn, the starting row being above the bottom edge (44_display.md R157). -/
theorem drawRows_pos {n : Nat} (hn : 0 < n) (y : Reg) (s : State) : 0 < drawRows y n s := by
  have : drawY y s < Config.displayH := Nat.mod_lt _ (by decide)
  rw [drawRows]; omega

/-- Settles O31: each access fails its check. -/
theorem accessBeyondMemoryChangesNothing : Obligations.AccessBeyondMemoryChangesNothing := by
  intro s x y n
  refine ⟨fun h => ?_, fun h => ?_, fun hn h => ?_⟩
  · exact exec_ldB_of_not_accessFits (not_accessFits (by decide) h)
  · have hf : ¬ accessFits s (x.val + 1) = true := not_accessFits (Nat.succ_pos _) h
    exact ⟨exec_stRegs_of_not_accessFits hf, exec_ldRegs_of_not_accessFits hf⟩
  · exact exec_drw_of_not_accessFits (not_accessFits (drawRows_pos hn y s) h)

/-! ### Registers stored over the next instruction -/

/-- FX55 stores Vr at `I` + r (43_index_and_memory.md R144). -/
theorem byte_writeBytes_regBytes (s : State) {x r : Reg} (hr : r.val ≤ x.val) :
    (s.writeBytes (effAddr s 0) (regBytes s (x.val + 1))).byte (effAddr s r.val) = s.reg r := by
  have hlen : r.val < (regBytes s (x.val + 1)).length := by rw [length_regBytes]; omega
  exact (byte_writeBytes_inside s _ _ _ hlen).trans (getElem_regBytes s _ _ hlen r.isLt)

/-- What FX55 inside memory leaves: PC as it was, and the registers stored. -/
theorem exec_stRegs_next {s t : State} {x : Reg} (h : exec (.stRegs x) s = .next t) (hx : s.i.toNat + x.val ≤ 0xFFF) :
    t.pc = s.pc ∧ ∀ r : Reg, r.val ≤ x.val → t.byte (effAddr s r.val) = s.reg r := by
  have hf : accessFits s (x.val + 1) = true := (accessFits_iff s _).mpr (by omega)
  rw [exec_stRegs_of_accessFits hf] at h
  obtain rfl := complete_next.mp h
  exact ⟨rfl, fun r hr => byte_writeBytes_regBytes s hr⟩

/-- Settles O32: the two bytes at PC are the registers stored there, the higher half of the opcode first. -/
theorem storedOpcodeIsFetchedNext : Obligations.StoredOpcodeIsFetchedNext := by
  intro s t x r r' h hx hsucc hr' hpc
  obtain ⟨hpct, hbyte⟩ := exec_stRegs_next h hx
  have hhi : t.byte s.pc.toNat = s.reg r := by rw [hpc]; exact hbyte r (by omega)
  have hnext : effAddr s r'.val = s.pc.toNat + 1 := by rw [hpc, hsucc]; rfl
  have hlo : t.byte (s.pc.toNat + 1) = s.reg r' := hnext ▸ hbyte r' hr'
  have hfetch : t.pc.toNat ≤ 0xFFE := by rw [hpct, hpc, effAddr]; omega
  refine ⟨_, fetch_some.mpr ⟨hfetch, rfl⟩, ?_⟩
  rw [State.setPc_ir, State.setIr_ir, hpct, opcodeAt, hhi, hlo, toNat_opcodeOf]

end Sys2Proof.Machine
end

section
/-! PROOFS. O1 to O5 (30_encoding.md R60 to R67): the encoder against the decoder, the decoder against the opcode map, and
the words the decoder rejects. -/

namespace Sys2Proof

/-! ### The encoder, then the decoder -/

/-- An encoded instruction selects its own row, with its own operands; DXYN's row count comes back when it fits its field. -/
theorem selectRow_encode {i : Instr} (hi : i.wellFormed = true) : selectRow (encode i) = some i := by
  cases i with
  | cls | ret => rfl
  | jp | call | ldI | jpV0 => simp [encode, selectRow]
  | seByte | sneByte | ldByte | addByte | rnd => simp [encode, selectRow]
  | seReg | sneReg => simp [encode, selectRow]
  | ldReg | orReg | andReg | xorReg | addReg | subReg | shrReg | subnReg | shlReg =>
    simp [encode, selectRow, decodeClass8]
  | drw x y n =>
    have hn : n < 16 := of_decide_eq_true hi
    simp [encode, selectRow, Nat.mod_eq_of_lt hn]
  | skp | sknp => simp [encode, selectRow, decodeClassE]
  | ldVxDt | ldVxK | ldDtVx | ldStVx | addI | ldF | ldB | stRegs | ldRegs => simp [encode, selectRow, decodeClassF]

/-- Settles O2: the two bytes are the encoded word again, and it selects the instruction's own row. -/
theorem encodedInstructionsDecodeBack : Obligations.EncodedInstructionsDecodeBack := by
  intro i rest hi
  have hw : decodeWord (opcodeOf (opcodeHi (encode i)) (opcodeLo (encode i))) = .ok i := by
    rw [opcodeOf_bytes]; exact (decodeWord_ok_iff _ i).mpr (selectRow_encode hi)
  exact (decodeBytes_cons _ _ rest i).mpr hw

/-! ### The decoder, then the encoder -/

section
variable {w : Word} {t n : Nibble} {nn : Byte} {i : Instr}

theorem formatA_of_fields (ht : (fieldT w).toNat = t.toNat) : formatA t (fieldNNN w) = w := by
  rw [← BitVec.eq_of_toNat_eq ht, formatA_fields]

theorem formatXB_of_fields (ht : (fieldT w).toNat = t.toNat) (hnn : fieldNN w = nn) :
    formatXB t (fieldX w) nn = w := by
  rw [← BitVec.eq_of_toNat_eq ht, ← hnn, formatXB_fields]

theorem formatXY_of_fields (ht : (fieldT w).toNat = t.toNat) (hn : (fieldN w).toNat = n.toNat) :
    formatXY t (fieldX w) (fieldY w) n = w := by
  rw [← BitVec.eq_of_toNat_eq ht, ← BitVec.eq_of_toNat_eq hn, formatXY_fields]

theorem decodeClass0_encodes (h : decodeClass0 w = some i) : i.wellFormed = true ∧ encode i = w := by
  unfold decodeClass0 at h
  split at h
  · next hw => cases h; exact ⟨rfl, hw.symm⟩
  · split at h
    · next hw => cases h; exact ⟨rfl, hw.symm⟩
    · cases h

theorem decodeClass8_encodes (ht : (fieldT w).toNat = 8) (h : decodeClass8 w = some i) :
    i.wellFormed = true ∧ encode i = w := by
  unfold decodeClass8 at h
  split at h <;> cases h
  all_goals exact ⟨rfl, formatXY_of_fields ht ‹_›⟩

theorem decodeClassE_encodes (ht : (fieldT w).toNat = 14) (h : decodeClassE w = some i) :
    i.wellFormed = true ∧ encode i = w := by
  unfold decodeClassE at h
  repeat' split at h
  all_goals cases h
  all_goals exact ⟨rfl, formatXB_of_fields ht ‹_›⟩

theorem decodeClassF_encodes (ht : (fieldT w).toNat = 15) (h : decodeClassF w = some i) :
    i.wellFormed = true ∧ encode i = w := by
  unfold decodeClassF at h
  repeat' split at h
  all_goals cases h
  all_goals exact ⟨rfl, formatXB_of_fields ht ‹_›⟩

/-- DXYN's row count is read from four bits, so it fits them. -/
theorem drw_encodes (ht : (fieldT w).toNat = 13) :
    (Instr.drw (fieldX w) (fieldY w) (fieldN w).toNat).wellFormed = true ∧
      encode (.drw (fieldX w) (fieldY w) (fieldN w).toNat) = w := by
  refine ⟨decide_eq_true (fieldN w).isLt, formatXY_of_fields ht ?_⟩
  rw [BitVec.ofNat_toNat, BitVec.setWidth_eq]

/-- The row selected keeps every bit of the word (30_encoding.md R61, R63). -/
theorem selectRow_encodes (h : selectRow w = some i) : i.wellFormed = true ∧ encode i = w := by
  unfold selectRow at h
  split at h
  case h_1 ht => exact decodeClass0_encodes h
  case h_6 ht | h_10 ht =>
    split at h
    · next hn => cases h; exact ⟨rfl, formatXY_of_fields ht (congrArg BitVec.toNat hn)⟩
    · cases h
  case h_9 ht => exact decodeClass8_encodes ht h
  case h_14 ht => cases h; exact drw_encodes ht
  case h_15 ht => exact decodeClassE_encodes ht h
  case h_16 ht => exact decodeClassF_encodes ht h
  case h_17 => cases h
  case h_2 ht | h_3 ht | h_11 ht | h_12 ht => cases h; exact ⟨rfl, formatA_of_fields ht⟩
  case h_4 ht | h_5 ht | h_7 ht | h_8 ht | h_13 ht => cases h; exact ⟨rfl, formatXB_of_fields ht rfl⟩

end

/-- Settles O3: no class of the decoder drops a bit of the word. -/
theorem decodedWordsEncodeBack : Obligations.DecodedWordsEncodeBack :=
  fun w i h => selectRow_encodes ((decodeWord_ok_iff w i).mp h)

/-! ### The decoder and the opcode map -/

theorem and_mask_of_selects {r : OpcodeRow} {w : Word} (h : r.selects w = true) : w &&& r.mask = r.value :=
  beq_iff_eq.mp h

/-- Two rows select no common word when they disagree on a bit both of them fix. -/
theorem not_selects_both {r r' : OpcodeRow} (h : r.value &&& r'.mask ≠ r'.value &&& r.mask) (w : Word) :
    ¬ (r.selects w = true ∧ r'.selects w = true) := by
  rintro ⟨hr, hr'⟩
  apply h
  rw [← and_mask_of_selects hr, ← and_mask_of_selects hr', BitVec.and_assoc, BitVec.and_assoc, BitVec.and_comm r.mask]

/-- The rows disagree two by two: 34 rows of fixed bits. -/
theorem opcodeTable_disagree :
    opcodeTable.Pairwise (fun r r' => r.value &&& r'.mask ≠ r'.value &&& r.mask) := by decide

/-- Building the row's instruction from a word that selects the row loses nothing of the word. -/
def RowEncodes (r : OpcodeRow) : Prop :=
  ∀ w : Word, r.selects w = true → (r.build w).wellFormed = true ∧ encode (r.build w) = w

section
variable {r : OpcodeRow} {w : Word} {t n : Nibble} {nn : Byte}

theorem fieldT_of_selects_maskT (hm : r.mask = 0xF000#16) (hv : r.value.toNat = t.toNat * 4096)
    (h : r.selects w = true) : (fieldT w).toNat = t.toNat := by
  have hw := toNat_maskT w
  rw [← hm, and_mask_of_selects h, hv] at hw
  rw [toNat_fieldT]; omega

theorem fields_of_selects_maskTN (hm : r.mask = 0xF00F#16) (hv : r.value.toNat = t.toNat * 4096 + n.toNat)
    (h : r.selects w = true) : (fieldT w).toNat = t.toNat ∧ (fieldN w).toNat = n.toNat := by
  have hw := toNat_maskTN w
  rw [← hm, and_mask_of_selects h, hv] at hw
  rw [toNat_fieldT, toNat_fieldN]; omega

theorem fields_of_selects_maskTNN (hm : r.mask = 0xF0FF#16) (hv : r.value.toNat = t.toNat * 4096 + nn.toNat)
    (h : r.selects w = true) : (fieldT w).toNat = t.toNat ∧ (fieldNN w).toNat = nn.toNat := by
  have hw := toNat_maskTNN w
  rw [← hm, and_mask_of_selects h, hv] at hw
  rw [toNat_fieldT, toNat_fieldNN]; omega

theorem rowEncodes_formatA (hb : ∀ w, (r.build w).wellFormed = true ∧ encode (r.build w) = formatA t (fieldNNN w))
    (hm : r.mask = 0xF000#16) (hv : r.value.toNat = t.toNat * 4096) : RowEncodes r := fun w h =>
  (hb w).imp_right (·.trans (formatA_of_fields (fieldT_of_selects_maskT hm hv h)))

theorem rowEncodes_formatXB
    (hb : ∀ w, (r.build w).wellFormed = true ∧ encode (r.build w) = formatXB t (fieldX w) (fieldNN w))
    (hm : r.mask = 0xF000#16) (hv : r.value.toNat = t.toNat * 4096) : RowEncodes r := fun w h =>
  (hb w).imp_right (·.trans (formatXB_of_fields (fieldT_of_selects_maskT hm hv h) rfl))

theorem rowEncodes_formatXY
    (hb : ∀ w, (r.build w).wellFormed = true ∧ encode (r.build w) = formatXY t (fieldX w) (fieldY w) n)
    (hm : r.mask = 0xF00F#16) (hv : r.value.toNat = t.toNat * 4096 + n.toNat) : RowEncodes r := fun w h =>
  have ⟨ht, hn⟩ := fields_of_selects_maskTN hm hv h
  (hb w).imp_right (·.trans (formatXY_of_fields ht hn))

theorem rowEncodes_formatXF
    (hb : ∀ w, (r.build w).wellFormed = true ∧ encode (r.build w) = formatXB t (fieldX w) nn)
    (hm : r.mask = 0xF0FF#16) (hv : r.value.toNat = t.toNat * 4096 + nn.toNat) : RowEncodes r := fun w h =>
  have ⟨ht, hnn⟩ := fields_of_selects_maskTNN hm hv h
  (hb w).imp_right (·.trans (formatXB_of_fields ht (BitVec.eq_of_toNat_eq hnn)))
end

/-- A row of format W fixes the whole word. -/
theorem eq_of_selects_all {r : OpcodeRow} {w : Word} (hm : r.mask = 0xFFFF#16) (h : r.selects w = true) :
    r.value = w := by
  have hall : w &&& 0xFFFF#16 = w := BitVec.and_allOnes
  rw [← and_mask_of_selects h, hm, hall]

theorem opcodeRows1_encode : ∀ r ∈ opcodeRows1, RowEncodes r := by
  unfold opcodeRows1
  simp only [List.forall_mem_cons]
  refine ⟨fun w h => ⟨rfl, eq_of_selects_all rfl h⟩, fun w h => ⟨rfl, eq_of_selects_all rfl h⟩,
    ?jp, ?call, ?seByte, ?sneByte, ?seReg, ?ldByte, ?addByte, List.forall_mem_nil _⟩
  case jp | call => exact rowEncodes_formatA (fun _ => ⟨rfl, rfl⟩) rfl rfl
  case seReg => exact rowEncodes_formatXY (fun _ => ⟨rfl, rfl⟩) rfl rfl
  all_goals exact rowEncodes_formatXB (fun _ => ⟨rfl, rfl⟩) rfl rfl

theorem opcodeRows2_encode : ∀ r ∈ opcodeRows2, RowEncodes r := by
  unfold opcodeRows2
  simp only [List.forall_mem_cons]
  refine ⟨?_, ?_, ?_, ?_, ?_, ?_, ?_, ?_, ?_, ?_, List.forall_mem_nil _⟩
  all_goals exact rowEncodes_formatXY (fun _ => ⟨rfl, rfl⟩) rfl rfl

theorem opcodeRows3_encode : ∀ r ∈ opcodeRows3, RowEncodes r := by
  unfold opcodeRows3
  simp only [List.forall_mem_cons]
  refine ⟨?ldI, ?jpV0, ?rnd, ?drw, ?_, ?_, ?_, ?_, ?_, ?_, ?_, ?_, ?_, ?_, ?_, List.forall_mem_nil _⟩
  case ldI | jpV0 => exact rowEncodes_formatA (fun _ => ⟨rfl, rfl⟩) rfl rfl
  case rnd => exact rowEncodes_formatXB (fun _ => ⟨rfl, rfl⟩) rfl rfl
  case drw => exact fun w h => drw_encodes (fieldT_of_selects_maskT (t := 0xD#4) rfl rfl h)
  all_goals exact rowEncodes_formatXF (fun _ => ⟨rfl, rfl⟩) rfl rfl

theorem opcodeTable_encodes {r : OpcodeRow} (hr : r ∈ opcodeTable) : RowEncodes r := by
  rcases List.mem_append.mp hr with h12 | h3
  · rcases List.mem_append.mp h12 with h1 | h2
    · exact opcodeRows1_encode r h1
    · exact opcodeRows2_encode r h2
  · exact opcodeRows3_encode r h3

/-- A word that selects a row decodes to what the row builds: the word is that instruction's encoding. -/
theorem selectRow_of_selects {r : OpcodeRow} (hr : r ∈ opcodeTable) {w : Word} (h : r.selects w = true) :
    selectRow w = some (r.build w) := by
  obtain ⟨hwf, henc⟩ := opcodeTable_encodes hr w h
  rw [← selectRow_encode hwf, henc]

open Laws in
/-- Every instruction's encoding selects a row. -/
theorem encode_selects : ∀ i : Instr, ∃ r ∈ opcodeTable, r.selects (encode i) = true
  | .cls => SelectsItsRow.cls
  | .ret => SelectsItsRow.ret
  | .jp nnn => SelectsItsRow.jp nnn
  | .call nnn => SelectsItsRow.call nnn
  | .seByte x nn => SelectsItsRow.seByte x nn
  | .sneByte x nn => SelectsItsRow.sneByte x nn
  | .seReg x y => SelectsItsRow.seReg x y
  | .ldByte x nn => SelectsItsRow.ldByte x nn
  | .addByte x nn => SelectsItsRow.addByte x nn
  | .ldReg x y => SelectsItsRow.ldReg x y
  | .orReg x y => SelectsItsRow.orReg x y
  | .andReg x y => SelectsItsRow.andReg x y
  | .xorReg x y => SelectsItsRow.xorReg x y
  | .addReg x y => SelectsItsRow.addReg x y
  | .subReg x y => SelectsItsRow.subReg x y
  | .shrReg x y => SelectsItsRow.shrReg x y
  | .subnReg x y => SelectsItsRow.subnReg x y
  | .shlReg x y => SelectsItsRow.shlReg x y
  | .sneReg x y => SelectsItsRow.sneReg x y
  | .ldI nnn => SelectsItsRow.ldI nnn
  | .jpV0 nnn => SelectsItsRow.jpV0 nnn
  | .rnd x nn => SelectsItsRow.rnd x nn
  | .drw x y n => SelectsItsRow.drw x y n
  | .skp x => SelectsItsRow.skp x
  | .sknp x => SelectsItsRow.sknp x
  | .ldVxDt x => SelectsItsRow.ldVxDt x
  | .ldVxK x => SelectsItsRow.ldVxK x
  | .ldDtVx x => SelectsItsRow.ldDtVx x
  | .ldStVx x => SelectsItsRow.ldStVx x
  | .addI x => SelectsItsRow.addI x
  | .ldF x => SelectsItsRow.ldF x
  | .ldB x => SelectsItsRow.ldB x
  | .stRegs x => SelectsItsRow.stRegs x
  | .ldRegs x => SelectsItsRow.ldRegs x

/-- The decoder against the map. A word that decodes is its instruction's encoding, so it selects a row, and what that row
builds is what the decoder answers. -/
theorem selectRow_iff_row (w : Word) (i : Instr) :
    selectRow w = some i ↔ ∃ r ∈ opcodeTable, r.selects w = true ∧ r.build w = i := by
  constructor
  · intro h
    obtain ⟨r, hr, hsel⟩ := encode_selects i
    rw [(selectRow_encodes h).2] at hsel
    exact ⟨r, hr, hsel, Option.some.inj ((selectRow_of_selects hr hsel).symm.trans h)⟩
  · rintro ⟨r, hr, hsel, rfl⟩
    exact selectRow_of_selects hr hsel

/-- Settles O4: fixed bits keep the rows apart, and each row builds what the decoder answers. -/
theorem decoderFollowsTheOpcodeMap : Obligations.DecoderFollowsTheOpcodeMap :=
  ⟨rfl, opcodeTable_disagree.imp not_selects_both, fun w i => (decodeWord_ok_iff w i).trans (selectRow_iff_row w i)⟩

/-! ### The words that decode to nothing -/

theorem ite_some_eq_none {α : Type} {c : Prop} [Decidable c] {a : α} {o : Option α} :
    (if c then some a else o) = none ↔ ¬ c ∧ o = none := by
  split <;> simp [*]

section
variable (w : Word)

theorem decodeClass0_eq_none : decodeClass0 w = none ↔ w ≠ 0x00E0#16 ∧ w ≠ 0x00EE#16 := by
  simp [decodeClass0, ite_some_eq_none]

theorem decodeClass8_eq_none :
    decodeClass8 w = none ↔ fieldN w ∈ [0x8#4, 0x9#4, 0xA#4, 0xB#4, 0xC#4, 0xD#4, 0xF#4] := by
  unfold decodeClass8
  split
  case h_10 =>
    have := (fieldN w).isLt
    simp only [List.mem_cons, List.not_mem_nil, ← BitVec.toNat_inj]
    grind
  all_goals next hn => simp [← BitVec.toNat_inj, hn]

theorem decodeClassE_eq_none : decodeClassE w = none ↔ fieldNN w ∉ [0x9E#8, 0xA1#8] := by
  simp [decodeClassE, ite_some_eq_none]

theorem decodeClassF_eq_none :
    decodeClassF w = none ↔
      fieldNN w ∉ [0x07#8, 0x0A#8, 0x15#8, 0x18#8, 0x1E#8, 0x29#8, 0x33#8, 0x55#8, 0x65#8] := by
  simp [decodeClassF, ite_some_eq_none]
end

/-- Settles O5: one row of R65's table for each class with unrecognized words; in the other classes every word is an
instruction. -/
theorem unrecognizedWordsAreTheTable : Obligations.UnrecognizedWordsAreTheTable := by
  intro w
  rw [decodeWord_error_iff, and_iff_left rfl]
  unfold selectRow
  split
  case h_1 ht => simp [← BitVec.toNat_inj (x := fieldT w), ht, decodeClass0_eq_none]
  case h_6 ht | h_10 ht => simp [← BitVec.toNat_inj (x := fieldT w), ht]
  case h_9 ht => simp [← BitVec.toNat_inj (x := fieldT w), ht, decodeClass8_eq_none]
  case h_15 ht => simp [← BitVec.toNat_inj (x := fieldT w), ht, decodeClassE_eq_none]
  case h_16 ht => simp [← BitVec.toNat_inj (x := fieldT w), ht, decodeClassF_eq_none]
  case h_17 =>
    have hT := (fieldT w).isLt
    grind
  all_goals next ht => simp [← BitVec.toNat_inj (x := fieldT w), ht]

/-- Settles O1: each word's row gives the instruction its fields, and no row selects 0x00E1. -/
theorem sampleWordsDecode : Obligations.SampleWordsDecode := by
  unfold Obligations.SampleWordsDecode; decide

end Sys2Proof
end

section
/-! PROOFS. O6, O7, O51, O52, O56 to O58 (40_fetch_decode_execute.md R83 to R88, R97): the fetch, the step on a decoded
instruction, the display-changed flag, and the end of a run. The step at a jump to itself is computed once; one step, a
run of steps and any events after the end all use it. -/

namespace Sys2Proof.Machine

/-! ### The fetch and the step -/

theorem fetch_of_le {s : State} (h : s.pc.toNat ≤ 0xFFE) :
    fetch s = some ((s.setIr (opcodeAt s s.pc.toNat)).setPc (s.pc + 2#16)) := fetch_some.mpr ⟨h, rfl⟩

/-- Settles O6: the opcode of two bytes as a number, and no carry out of PC; the latch is not looked at. -/
theorem fetchReadsTwoBytesBigEndian : Obligations.FetchReadsTwoBytesBigEndian := by
  intro s h
  have hpc : (s.pc + 2#16).toNat = s.pc.toNat + 2 := by bv_omega
  exact ⟨_, fetch_of_le h, toNat_opcodeOf _ _, hpc, rfl, fun w => fetch_of_le (s := s.setWait w) h⟩

/-- Settles O7: the fetch succeeds, and IR holds the opcode decoded. -/
theorem stepRunsDecodedInstruction : Obligations.StepRunsDecodedInstruction := by
  intro s i h hd
  rw [step, fetch_of_le h]
  simp only [State.setPc_ir, State.setIr_ir, hd]

/-! ### The display-changed flag -/

/-- 00E0 and DXYN set DC when they complete (44_display.md R156, R157), and a DXYN that raises its error writes nothing; every
other instruction keeps DC. -/
theorem exec_dc {i : Instr} {s t : State} (h : exec i s = .next t) :
    t.dc = true ↔ s.dc = true ∨ (t.result = .ok ∧ (i = .cls ∨ ∃ x y n, i = .drw x y n)) := by
  by_cases hi : i = .cls ∨ ∃ x y n, i = .drw x y n
  · rcases hi with rfl | ⟨x, y, n, rfl⟩
    · obtain rfl := complete_next.mp h; simp
    · simp only [exec, execDrw] at h; split at h
      · obtain rfl := complete_next.mp h; simp
      · obtain rfl := raise_next.mp h; simp
  · obtain ⟨-, -, -, -, -, -, -, -, -, -, -, hdisp, -⟩ := eachStateHasItsOwnWriters i s t h
    obtain ⟨-, hdc⟩ : DisplayKept s t := by_contra fun hk => hi (hdisp hk)
    simp [hdc, hi]

theorem exec_ir {i : Instr} {s t : State} (h : exec i s = .next t) : t.ir = s.ir := by
  obtain ⟨-, hir, -⟩ := eachStateHasItsOwnWriters i s t h
  exact hir

/-- Settles O51: the execute phase keeps IR, so IR names the instruction that ran; with no instruction DC stays. -/
theorem displayChangedFlagFollowsDrawing : Obligations.DisplayChangedFlagFollowsDrawing := by
  intro s t h
  obtain ⟨s1, hf, hx⟩ := step_next h
  have hdc : s1.dc = s.dc := by obtain ⟨_, rfl⟩ := fetch_some.mp hf; rfl
  rw [← hdc]
  rcases hx with ⟨i, hd, he⟩ | ⟨⟨e, hd⟩, rfl⟩
  · simp only [exec_ir he, hd, Except.ok.injEq]
    exact exec_dc he
  · simp

/-! ### A jump to itself -/

/-- Fetch and jump cancel out: PC is back where it was. -/
theorem step_of_selfJump {s : State} {nnn : Addr12} (h : s.pc.toNat ≤ 0xFFE)
    (hd : decodeWord (opcodeAt s s.pc.toNat) = .ok (.jp nnn)) (hn : nnn.toNat = s.pc.toNat) :
    step s = .next ((s.setIr (opcodeAt s s.pc.toNat)).setResult .ok) := by
  have hback : addrWord nnn = s.pc := by
    apply BitVec.eq_of_toNat_eq
    rw [addrWord, BitVec.toNat_setWidth, hn]; omega
  rw [stepRunsDecodedInstruction s _ h hd, exec, execJp, hback]; rfl

/-- Settles O52: the word of the jump decodes to it. -/
theorem selfJumpChangesOnlyIr : Obligations.SelfJumpChangesOnlyIr := by
  intro s nnn hn h hop
  have hd : decodeWord (opcodeAt s s.pc.toNat) = .ok (.jp nnn) := by
    rw [hop, decodeWord_ok_iff]; exact selectRow_encode (i := .jp nnn) rfl
  rw [step_of_selfJump h hd hn.symm, hop]

/-- Settles O56: below 0x1000 the 12-bit target is PC when the numbers agree. -/
theorem runEndsAtASelfJump : Obligations.RunEndsAtASelfJump := by
  intro s
  rw [runEnded_spec, and_congr_right_iff]
  intro h
  have hpc : (s.pc.setWidth 12).toNat = s.pc.toNat := by rw [BitVec.toNat_setWidth]; omega
  constructor
  · intro hd
    exact ⟨_, hd, hpc⟩
  · rintro ⟨nnn, hd, hn⟩
    rwa [BitVec.eq_of_toNat_eq (hpc.trans hn.symm)]

/-! ### After the end of a run -/

theorem stepEvent_of_runEnded {s : State} (h : runEnded s = true) :
    (stepEvent s).1 = (s.setIr (opcodeAt s s.pc.toNat)).setResult .ok := by
  obtain ⟨hpc, nnn, hd, hn⟩ := (runEndsAtASelfJump s).mp h
  rw [stepEvent_of_next (step_of_selfJump hpc hd hn)]

/-- One step or many: the later ones write the same opcode and the same result again. -/
theorem runEvents_steps_of_runEnded (n : Nat) {s : State} (h : runEnded s = true) :
    runEvents (List.replicate (n + 1) .step) s = (s.setIr (opcodeAt s s.pc.toNat)).setResult .ok := by
  induction n generalizing s with
  | zero => exact stepEvent_of_runEnded h
  | succ n ih =>
    have hs := stepEvent_of_runEnded h
    have hended : runEnded (stepEvent s).1 = true := by rw [hs]; exact h
    rw [List.replicate_succ, runEvents_cons]
    exact (ih hended).trans (by rw [hs]; rfl)

/-- What neither a step at the end of a run nor any event but `reset` and `load` writes. -/
def heldAtEnd (s : State) :
    Vector Byte 16 × Word × Word × Vector Word 16 × Fin 17 × Memory × Config.Font × Display × WaitLatch :=
  (s.v, s.i, s.pc, s.stack, s.sp, s.mem, s.font, s.disp, s.wait)

theorem heldAtEnd_eq_iff {s t : State} :
    heldAtEnd t = heldAtEnd s ↔ t.v = s.v ∧ t.i = s.i ∧ t.pc = s.pc ∧ t.stack = s.stack ∧ t.sp = s.sp ∧ t.mem = s.mem ∧
      t.font = s.font ∧ t.disp = s.disp ∧ t.wait = s.wait := by
  simp only [heldAtEnd, Prod.mk.injEq]

theorem memKept_of_heldAtEnd {s t : State} (h : heldAtEnd t = heldAtEnd s) : MemKept s t := by
  obtain ⟨-, -, -, -, -, hm, hf, -, -⟩ := heldAtEnd_eq_iff.mp h
  intro a
  rw [State.byte, hm, hf]; rfl

theorem runEnded_of_heldAtEnd {s t : State} (h : heldAtEnd t = heldAtEnd s) : runEnded t = runEnded s := by
  obtain ⟨-, -, hpc, -⟩ := heldAtEnd_eq_iff.mp h
  exact runEnded_congr hpc (memKept_of_heldAtEnd h)

theorem setKey_heldAtEnd (k : Byte) (pressed : Bool) (s : State) : heldAtEnd (setKey k pressed s).1 = heldAtEnd s := by
  unfold setKey; split <;> rfl

/-- Only the step needs the run to have ended; the timers, the keys and DC, which the other events write, are not held. -/
theorem applyEvent_heldAtEnd {e : Event} {s : State} (h : runEnded s = true) (hreset : e ≠ .reset)
    (hload : ∀ image, e ≠ .load image) : heldAtEnd (applyEvent e s).1 = heldAtEnd s := by
  cases e with
  | reset => exact absurd rfl hreset
  | load image => exact absurd rfl (hload image)
  | step =>
    show heldAtEnd (stepEvent s).1 = heldAtEnd s
    rw [stepEvent_of_runEnded h]; rfl
  | keyPress k => exact setKey_heldAtEnd k true s
  | keyRelease k => exact setKey_heldAtEnd k false s
  | debugReg index => unfold applyEvent; dsimp only; split <;> rfl
  | tick | displayRead | debugRegs | debugI | debugPc | debugStack | debugMem => rfl

theorem runEvents_heldAtEnd {es : List Event} {s : State} (h : runEnded s = true)
    (hes : ∀ e ∈ es, e ≠ .reset ∧ ∀ image, e ≠ .load image) : heldAtEnd (runEvents es s) = heldAtEnd s := by
  induction es generalizing s with
  | nil => rfl
  | cons e es ih =>
    obtain ⟨⟨hreset, hload⟩, hes⟩ := List.forall_mem_cons.mp hes
    have he := applyEvent_heldAtEnd h hreset hload
    exact (ih ((runEnded_of_heldAtEnd he).trans h) hes).trans he

/-- Settles O57: the parts held decide whether the run has ended, so each event finds it still ended. -/
theorem endedRunStaysEnded : Obligations.EndedRunStaysEnded := by
  intro s h
  refine ⟨fun n => runEvents_steps_of_runEnded n h, fun es hes => ?_⟩
  have hheld := runEvents_heldAtEnd h hes
  obtain ⟨hv, hi, hpc, hstack, hsp, -, -, hdisp, hwait⟩ := heldAtEnd_eq_iff.mp hheld
  exact ⟨(runEnded_of_heldAtEnd hheld).trans h, hv, hi, hpc, ⟨hstack, hsp⟩, memKept_of_heldAtEnd hheld, hdisp, hwait⟩

/-! ### A run to its end -/

/-- Settles O58, by induction on the bound: no step from an ended state, and one step more than the run from the next state
otherwise. -/
theorem runToEndStopsAtTheFirstEnd : Obligations.RunToEndStopsAtTheFirstEnd := by
  intro n
  induction n with
  | zero =>
    intro s
    exact ⟨0, Nat.le_refl 0, rfl, fun _ hj => absurd hj (Nat.not_lt_zero _), fun hk => absurd hk (Nat.lt_irrefl 0)⟩
  | succ n ih =>
    intro s
    cases h : runEnded s with
    | true =>
      rw [runToEnd_of_ended h]
      exact ⟨0, Nat.zero_le _, rfl, fun _ hj => absurd hj (Nat.not_lt_zero _), fun _ => h⟩
    | false =>
      obtain ⟨k, hkn, hrun, hbefore, hend⟩ := ih (stepEvent s).1
      rw [runToEnd_of_not_ended h]
      refine ⟨k + 1, Nat.succ_le_succ hkn, hrun, fun j hj => ?_, fun hk => hend (Nat.lt_of_succ_lt_succ hk)⟩
      cases j with
      | zero => exact h
      | succ j => exact hbefore j (Nat.lt_of_succ_lt_succ hj)

end Sys2Proof.Machine
end

section
/-! PROOFS. O11 to O18 (41_control_flow.md R100 to R109): jumps, skips, calls and returns. A jump and a skip write PC alone, and
a call and a return the stack besides; each frame is said once. What 2NNN and 00EE leave is said once, and their statements and
the call undone by its return are read off it. -/

namespace Sys2Proof.Machine

theorem decodeWord_encode {i : Instr} (hi : i.wellFormed = true) : decodeWord (encode i) = .ok i :=
  (decodeWord_ok_iff _ i).mpr (selectRow_encode hi)

/-! ### The stack: 2NNN and 00EE -/

section
variable {s : State}

theorem push_of_lt (h : s.sp.val < 16) (a : Word) :
    s.push a = some ((s.setStack (s.stack.set s.sp.val a)).setSp ⟨s.sp.val + 1, by omega⟩) := dif_pos h

theorem pop_of_eq_succ {j : Fin 16} (h : s.sp.val = j.val + 1) : s.pop = some (s.stack[j], s.setSp j.castSucc) := by
  have hpos : 0 < s.sp.val := by omega
  rw [State.pop, dif_pos hpos]
  simp only [h, Nat.add_sub_cancel]; rfl

/-- A call with room: the post-fetch PC into slot SP, SP one more, then the jump (R103). -/
theorem exec_call_of_lt (h : s.sp.val < 16) (nnn : Addr12) :
    exec (.call nnn) s = .next
      ((((s.setStack (s.stack.set s.sp.val s.pc)).setSp ⟨s.sp.val + 1, by omega⟩).setPc (addrWord nnn)).setResult .ok) := by
  rw [exec, execCall, push_of_lt h]; rfl

/-- A return with an entry: the top one into PC, SP one less (R101). -/
theorem exec_ret_of_eq_succ {j : Fin 16} (h : s.sp.val = j.val + 1) :
    exec .ret s = .next (((s.setSp j.castSucc).setPc s.stack[j]).setResult .ok) := by
  rw [exec, execRet, pop_of_eq_succ h]; rfl

/-- The frame of a call and of a return: they write the stack, PC and the result. -/
theorem frame_of_stackMoved {t : State} {stack : Vector Word 16} {sp : Fin 17} {a : Word}
    (ht : t = (((s.setStack stack).setSp sp).setPc a).setResult .ok) :
    t.i = s.i ∧ RegsKeptBut [] s t ∧ MemKept s t ∧ TimersKept s t ∧ DisplayKept s t ∧ KeypadKept s t ∧
      t.ir = s.ir ∧ t.draws = s.draws ∧ t.result = .ok := by
  subst ht
  exact ⟨rfl, regsKeptBut_refl [] s, fun _ => rfl, ⟨rfl, rfl⟩, ⟨rfl, rfl⟩, ⟨rfl, rfl⟩, rfl, rfl, rfl⟩
end

/-- Settles O17: the push finds no room, the pop no entry. -/
theorem stackErrorsChangeNothing : Obligations.StackErrorsChangeNothing := by
  refine ⟨fun s nnn h => ?_, fun s h => ?_⟩
  · rw [exec, execCall, push_none.mpr h]; rfl
  · rw [exec, execRet, pop_none.mpr h]; rfl

theorem toNat_addrWord (nnn : Addr12) : (addrWord nnn).toNat = nnn.toNat :=
  BitVec.toNat_setWidth_of_le (by decide)

/-- Settles O15: writing slot SP leaves every other slot. -/
theorem callPushesAndJumps : Obligations.CallPushesAndJumps := by
  intro s nnn h
  have hslot (j : Fin 16) : (s.stack.set s.sp.val s.pc)[j] = if j.val = s.sp.val then s.pc else s.stack[j] := by
    simp only [Fin.getElem_fin, Vector.getElem_set, eq_comm]
  exact ⟨_, exec_call_of_lt h nnn, toNat_addrWord nnn, rfl, hslot, frame_of_stackMoved rfl⟩

/-- Settles O16: a return writes no slot, so its frame is the one with the slots as they were. -/
theorem returnPopsIntoPc : Obligations.ReturnPopsIntoPc := by
  intro s j h
  exact ⟨_, exec_ret_of_eq_succ h, rfl, rfl, rfl, frame_of_stackMoved (stack := s.stack) rfl⟩

/-- Settles O18: the slot the return reads is the one the call wrote. -/
theorem returnUndoesCall : Obligations.ReturnUndoesCall := by
  intro s t t' nnn h hcall hstack hsp
  rw [exec_call_of_lt h nnn] at hcall
  obtain rfl := Host.Outcome.next.inj hcall
  have hdepth : t'.sp.val = s.sp.val + 1 := congrArg Fin.val hsp
  have htop : t'.stack[s.sp.val] = s.pc := by simp [hstack]
  exact ⟨_, exec_ret_of_eq_succ (j := ⟨s.sp.val, h⟩) hdepth, htop, rfl⟩

/-! ### Jumps: 1NNN and BNNN -/

theorem quietBut_setPc (s : State) (a : Word) : QuietBut [] s ((s.setPc a).setResult .ok) :=
  ⟨regsKeptBut_refl [] s, fun _ => rfl, ⟨rfl, rfl⟩, ⟨rfl, rfl⟩, ⟨rfl, rfl⟩, ⟨rfl, rfl⟩, rfl, rfl⟩

/-- Settles O11: the jump writes PC, and twelve bits zero-extended are the same number. -/
theorem jumpGoesToNNN : Obligations.JumpGoesToNNN := fun s nnn =>
  ⟨decodeWord_encode (i := .jp nnn) rfl, _, rfl, toNat_addrWord nnn, rfl, quietBut_setPc s _, rfl⟩

/-- The sum of BNNN stays below 65536, so nothing of it is lost (R108). -/
theorem toNat_add16_addrWord_regWord (nnn : Addr12) (s : State) (x : Reg) :
    (add16 (addrWord nnn) (regWord s x)).toNat = nnn.toNat + (s.reg x).toNat := by
  have hnnn := nnn.isLt
  have hreg := (s.reg x).isLt
  have hword : (regWord s x).toNat = (s.reg x).toNat := BitVec.toNat_setWidth_of_le (by decide)
  rw [add16, BitVec.toNat_add, toNat_addrWord, hword]; omega

/-- Settles O12: the jump writes PC, and the sum does not wrap. -/
theorem jumpPlusV0IsNotReduced : Obligations.JumpPlusV0IsNotReduced := fun s nnn =>
  ⟨decodeWord_encode (i := .jpV0 nnn) rfl, _, rfl, toNat_add16_addrWord_regWord nnn s 0, rfl, quietBut_setPc s _, rfl⟩

/-! ### Skips: 3XNN, 4XNN, 5XY0 and 9XY0 -/

/-- An instruction that is a skip on `c` completes, and moves PC alone (R100 (a)). -/
theorem completes_of_skipIf {i : Instr} {s : State} {c : Bool} {a : Word} (h : exec i s = complete (s.skipIf c))
    (ha : (if c then s.pc + 2#16 else s.pc) = a) :
    ∃ t, exec i s = .next t ∧ t.pc = a ∧ t.i = s.i ∧ QuietBut [] s t ∧ t.result = .ok := by
  rw [State.skipIf_eq, ha] at h
  exact ⟨_, h, rfl, rfl, quietBut_setPc s a, rfl⟩

/-- Settles O13: both words are encodings, both instructions skips. -/
theorem skipsComparingWithByte : Obligations.SkipsComparingWithByte := by
  intro s x nn
  refine ⟨decodeWord_encode (i := .seByte x nn) rfl, decodeWord_encode (i := .sneByte x nn) rfl, ?se, ?sne⟩
  case se => exact completes_of_skipIf rfl (by simp)
  case sne => exact completes_of_skipIf rfl (by simp)

/-- Classes 5 and 9 take no word with a low nibble other than 0 (30_encoding.md R64, D3). -/
theorem decodeWord_formatXY_ne_ok {t n : Nibble} (ht : t = 0x5#4 ∨ t = 0x9#4) (hn : n ≠ 0x0#4) (x y : Reg) (i : Instr) :
    decodeWord (formatXY t x y n) ≠ .ok i := by
  rw [ne_eq, decodeWord_ok_iff]
  rcases ht with rfl | rfl <;> simp [selectRow, hn]

/-- Settles O14: both words are encodings, both instructions skips; with another low nibble the class has no row. -/
theorem skipsComparingRegisters : Obligations.SkipsComparingRegisters := by
  intro s x y
  refine ⟨decodeWord_encode (i := .seReg x y) rfl, decodeWord_encode (i := .sneReg x y) rfl,
    fun n hn i => ⟨?class5, ?class9⟩, ?se, ?sne⟩
  case class5 => exact decodeWord_formatXY_ne_ok (.inl rfl) hn x y i
  case class9 => exact decodeWord_formatXY_ne_ok (.inr rfl) hn x y i
  case se => exact completes_of_skipIf rfl (by simp)
  case sne => exact completes_of_skipIf rfl (by simp)

end Sys2Proof.Machine
end

section
/-! PROOFS. O19 to O24 and O54 (42_alu_and_registers.md R120 to R133): registers and arithmetic. What each 8-bit function gives as
a number, what the two flag-writing orders of R121 leave in VX and VF, and the frame of an instruction of registers alone are
said once; the draw is then followed through every instruction. -/

namespace Sys2Proof.Machine

/-! ### The 8-bit functions as numbers (R120) -/

theorem toNat_flagByte (p : Prop) [Decidable p] : (flagByte (decide p)).toNat = if p then 1 else 0 := by
  by_cases h : p <;> simp [flagByte, h]

theorem toNat_add8 (a b : Byte) : (add8 a b).1.toNat = (a.toNat + b.toNat) % 256 := BitVec.toNat_add a b

theorem toNat_sub8 (a b : Byte) : (sub8 a b).1.toNat = (256 + a.toNat - b.toNat) % 256 := by
  have hb := b.isLt
  rw [sub8, BitVec.toNat_sub]; omega

theorem toNat_shr8 (a : Byte) : (shr8 a).1.toNat = a.toNat / 2 := by
  rw [shr8, BitVec.toNat_ushiftRight, Nat.shiftRight_eq_div_pow, Nat.pow_one]

theorem toNat_shl8 (a : Byte) : (shl8 a).1.toNat = 2 * a.toNat % 256 := by
  rw [shl8, BitVec.toNat_shiftLeft, Nat.shiftLeft_eq, Nat.pow_one, Nat.mul_comm]

theorem toNat_flagByte_shr8 (a : Byte) : (flagByte (shr8 a).2).toNat = a.toNat % 2 := by
  have hbit : (shr8 a).2 = decide (a.toNat % 2 = 1) := Nat.testBit_zero _
  rw [hbit, toNat_flagByte]; split <;> omega

theorem toNat_flagByte_shl8 (a : Byte) : (flagByte (shl8 a).2).toNat = a.toNat / 128 := by
  have ha := a.isLt
  have hbit : (shl8 a).2 = decide (a.toNat / 128 % 2 = 1) := Nat.testBit_eq_decide_div_mod_eq
  rw [hbit, toNat_flagByte]; split <;> omega

/-! ### The frame of an instruction of registers alone -/

/-- A state differing in the register file alone, completed: everything but the registers listed is kept. -/
theorem frame_of_regs {s u : State} {xs : List Reg} (hu : u = s.setV u.v) (hr : RegsKeptBut xs s u) :
    (u.setResult .ok).i = s.i ∧ QuietBut xs s (u.setResult .ok) ∧ CompletedInPlace s (u.setResult .ok) := by
  generalize u.v = v at hu
  subst hu
  exact ⟨rfl, ⟨hr, fun _ => rfl, ⟨rfl, rfl⟩, ⟨rfl, rfl⟩, ⟨rfl, rfl⟩, ⟨rfl, rfl⟩, rfl, rfl⟩, rfl, rfl⟩

theorem frame_of_setReg (s : State) (x : Reg) (b : Byte) :
    ((s.setReg x b).setResult .ok).i = s.i ∧ QuietBut [x] s ((s.setReg x b).setResult .ok) ∧
      CompletedInPlace s ((s.setReg x b).setResult .ok) :=
  frame_of_regs rfl (regsKeptBut_setReg s x b)

/-! ### One register written: 6XNN, 7XNN and 8XY0 to 8XY3 -/

/-- Settles O19: both words are encodings, both instructions write VX alone. -/
theorem loadAndAddImmediate : Obligations.LoadAndAddImmediate := by
  intro s x nn
  refine ⟨decodeWord_encode (i := .ldByte x nn) rfl, decodeWord_encode (i := .addByte x nn) rfl,
    ⟨_, rfl, ?load, frame_of_setReg s x _⟩, ⟨_, rfl, ?add, frame_of_setReg s x _⟩⟩
  case load => exact State.reg_setReg_same s x nn
  case add => rw [State.reg_setResult, State.reg_setReg_same, toNat_add8]

/-- Settles O20: the four words are encodings, the four instructions write VX alone. -/
theorem copyAndLogicWriteNoFlag : Obligations.CopyAndLogicWriteNoFlag := by
  intro s x y
  refine ⟨⟨decodeWord_encode (i := .ldReg x y) rfl, decodeWord_encode (i := .orReg x y) rfl,
      decodeWord_encode (i := .andReg x y) rfl, decodeWord_encode (i := .xorReg x y) rfl⟩,
    ⟨_, rfl, ?copy, frame_of_setReg s x _⟩, ⟨_, rfl, fun b => ?or, frame_of_setReg s x _⟩,
    ⟨_, rfl, fun b => ?and, frame_of_setReg s x _⟩, ⟨_, rfl, fun b => ?xor, frame_of_setReg s x _⟩⟩
  case copy => exact State.reg_setReg_same s x _
  case or => rw [State.reg_setResult, State.reg_setReg_same, BitVec.getLsbD_or]
  case and => rw [State.reg_setResult, State.reg_setReg_same, BitVec.getLsbD_and]
  case xor => rw [State.reg_setResult, State.reg_setReg_same, BitVec.getLsbD_xor]

/-! ### The flag, then the result: 8XY4, 8XY5 and 8XY7 -/

/-- A register read after a register is written, as a number. -/
theorem toNat_reg_setReg (s : State) (x r : Reg) (b : Byte) :
    ((s.setReg x b).reg r).toNat = if r = x then b.toNat else (s.reg r).toNat := by
  rw [State.reg_setReg, apply_ite BitVec.toNat]

/-- An instruction that sets the flag `c`, then the result `op` of VX and VY (R121, D1): the registers `op` reads are the old ones
with the new VF. -/
theorem completes_of_flagThenResult {i : Instr} {s : State} {x y : Reg} {f : State → Byte × Bool} {c : Nat}
    {op : Nat → Nat → Nat} (h : exec i s = complete (flagThenResult f x s)) (hc : (flagByte (f s).2).toNat = c)
    (hop : ∀ r : State, (f r).1.toNat = op (r.reg x).toNat (r.reg y).toNat) :
    ∃ t, exec i s = .next t ∧
      (x ≠ vf → (t.reg vf).toNat = c ∧ (t.reg x).toNat = op (s.reg x).toNat (if y = vf then c else (s.reg y).toNat)) ∧
      (x = vf → (t.reg vf).toNat = op c (if y = vf then c else (s.reg y).toNat)) ∧
      t.i = s.i ∧ QuietBut [x, vf] s t ∧ CompletedInPlace s t := by
  have hresult : ((flagThenResult f x s).reg x).toNat =
      op (if x = vf then c else (s.reg x).toNat) (if y = vf then c else (s.reg y).toNat) := by
    rw [reg_flagThenResult, if_pos rfl, hop, toNat_reg_setReg, toNat_reg_setReg, hc]
  refine ⟨_, h, fun hx => ⟨?flag, ?result⟩, fun hx => ?resultInVf,
    frame_of_regs rfl (regsKeptBut_flagThenResult f x s)⟩
  case flag => rw [State.reg_setResult, reg_flagThenResult, if_neg hx.symm, if_pos rfl, hc]
  case result => rw [State.reg_setResult, hresult, if_neg hx]
  case resultInVf => rw [State.reg_setResult, ← hx, hresult, if_pos hx, hx]

/-- Settles O21: the flag is the carry, the result the sum. -/
theorem addSetsCarryThenSum : Obligations.AddSetsCarryThenSum := fun _ x y =>
  completes_of_flagThenResult (op := fun a b => (a + b) % 256) rfl (toNat_flagByte _)
    fun r => toNat_add8 (r.reg x) (r.reg y)

/-- Settles O22: the two subtractions differ in the order of VX and VY alone, in the flag and in the result. -/
theorem subtractionsSetStrictFlagThenDifference : Obligations.SubtractionsSetStrictFlagThenDifference := by
  intro s x y
  refine ⟨?sub, ?subn⟩
  case sub =>
    exact completes_of_flagThenResult (op := fun a b => (256 + a - b) % 256) rfl (toNat_flagByte _)
      fun r => toNat_sub8 (r.reg x) (r.reg y)
  case subn =>
    exact completes_of_flagThenResult (op := fun a b => (256 + b - a) % 256) rfl (toNat_flagByte _)
      fun r => toNat_sub8 (r.reg y) (r.reg x)

/-! ### The copy, the flag, then the shift: 8XY6 and 8XYE -/

/-- An instruction that shifts the copy of VY (R121, D1): VX and VF take the results for VY, and where VX is VF the last
assignment shifts the flag, which gives `k`. -/
theorem completes_of_copyThenShift {i : Instr} {s : State} {x y : Reg} {f : Byte → Byte × Bool} {flag shift : Nat → Nat}
    {k : Nat} (h : exec i s = complete (copyThenShift f x y s)) (hflag : ∀ a, (flagByte (f a).2).toNat = flag a.toNat)
    (hshift : ∀ a, (f a).1.toNat = shift a.toNat) (hvf : shift (flag (s.reg y).toNat) = k) :
    ∃ t, exec i s = .next t ∧
      (x ≠ vf → (t.reg vf).toNat = flag (s.reg y).toNat ∧ (t.reg x).toNat = shift (s.reg y).toNat) ∧
      (x = vf → (t.reg vf).toNat = k) ∧
      t.i = s.i ∧ QuietBut [x, vf] s t ∧ CompletedInPlace s t := by
  refine ⟨_, h, fun hx => ⟨?flag, ?shift⟩, fun hx => ?shiftedFlag,
    frame_of_regs (copyThenShift_eq f x y s) (regsKeptBut_copyThenShift f x y s)⟩
  case flag => rw [State.reg_setResult, reg_copyThenShift, if_neg hx.symm, if_pos rfl, hflag]
  case shift => rw [State.reg_setResult, reg_copyThenShift, if_pos rfl, if_neg hx, hshift]
  case shiftedFlag => rw [State.reg_setResult, reg_copyThenShift, if_pos hx.symm, if_pos hx, hshift, hflag, hvf]

/-- Settles O23: shifting a flag of 0 or 1 right leaves 0, and left twice the flag. -/
theorem shiftsMoveTheCopyOfVy : Obligations.ShiftsMoveTheCopyOfVy := by
  intro s x y b
  have hb : b < 256 := (s.reg y).isLt
  have hshr : b % 2 / 2 = 0 := by omega
  have hshl : 2 * (b / 128) % 256 = 2 * (b / 128) := by omega
  refine ⟨⟨decodeWord_encode (i := .shrReg x y) rfl, decodeWord_encode (i := .shlReg x y) rfl⟩, ?shr, ?shl⟩
  case shr =>
    exact completes_of_copyThenShift (flag := (· % 2)) (shift := (· / 2)) rfl toNat_flagByte_shr8 toNat_shr8 hshr
  case shl =>
    exact completes_of_copyThenShift (flag := (· / 128)) (shift := (2 * · % 256)) rfl toNat_flagByte_shl8 toNat_shl8 hshl

/-! ### The draw: CXNN, and no other instruction -/

/-- Settles O24: CXNN writes VX and counts the draw. -/
theorem randomByteIsMasked : Obligations.RandomByteIsMasked := by
  intro s x nn
  refine ⟨decodeWord_encode (i := .rnd x nn) rfl, fun r u => State.reg_setReg_same u x _, _, rfl,
    State.reg_setReg_same _ x _, rfl, rfl, ?kept, fun _ => rfl, ⟨rfl, rfl⟩, ⟨rfl, rfl⟩, ⟨rfl, rfl⟩, ⟨rfl, rfl⟩, rfl,
    rfl, rfl⟩
  case kept => exact regsKeptBut_setReg (s.setDraws (s.draws + 1)) x _

/-- What an instruction answers, with its next state changed by `g`. -/
def mapNext (g : State → State) : Host.Outcome State Fault Refusal → Host.Outcome State Fault Refusal
  | .next t => .next (g t)
  | .fault r => .fault r
  | .refused r => .refused r

section
variable (s : State) (n : Nat)

theorem push_setDraws (a : Word) : (s.setDraws n).push a = (s.push a).map (·.setDraws n) := by
  unfold State.push
  rw [apply_dite (Option.map _)]; rfl

theorem pop_setDraws : (s.setDraws n).pop = s.pop.map fun p => (p.1, p.2.setDraws n) := by
  unfold State.pop
  rw [apply_dite (Option.map _)]; rfl

theorem keyOfReg_setDraws (x : Reg) : keyOfReg x (s.setDraws n) = keyOfReg x s := rfl

theorem complete_skipIf_setDraws (c : Bool) :
    complete ((s.setDraws n).skipIf c) = mapNext (·.setDraws n) (complete (s.skipIf c)) := by
  rw [State.skipIf_eq, State.skipIf_eq]; rfl

/-- FX0A: the latch and the keys decide. -/
theorem execLdVxK_setDraws (x : Reg) :
    execLdVxK x (s.setDraws n) = mapNext (·.setDraws n) (execLdVxK x s) := by
  unfold execLdVxK
  rw [show (s.setDraws n).wait = s.wait from rfl, show (s.setDraws n).anyKey = s.anyKey from rfl,
    show (s.setDraws n).firstKey = s.firstKey from rfl]
  cases s.wait with
  | idle => cases s.anyKey <;> rfl
  | armed => cases s.firstKey <;> rfl
  | keySeen => cases s.anyKey <;> rfl

/-- Every instruction but CXNN carries the draw counter along: it neither reads nor writes it. -/
theorem exec_setDraws {i : Instr} (hi : ∀ x nn, i ≠ .rnd x nn) :
    exec i (s.setDraws n) = mapNext (·.setDraws n) (exec i s) := by
  cases i with
  | rnd x nn => exact absurd rfl (hi x nn)
  | seByte | sneByte | seReg | sneReg => exact complete_skipIf_setDraws s n _
  | skp x | sknp x =>
    simp only [exec, execSkp, execSknp, keyOfReg_setDraws]
    cases keyOfReg x s with
    | none => rfl
    | some b => exact complete_skipIf_setDraws s n _
  | ret =>
    simp only [exec, execRet, pop_setDraws]
    cases s.pop <;> rfl
  | call nnn =>
    simp only [exec, execCall, State.setDraws_pc, push_setDraws]
    cases s.push s.pc <;> rfl
  | ldVxK x => exact execLdVxK_setDraws s n x
  | ldB | stRegs | ldRegs | drw =>
    simp only [exec, execLdB, execStRegs, execLdRegs, execDrw, apply_ite (mapNext _)]; rfl
  | _ => rfl
end

/-- Settles O54. -/
theorem onlyRandomInstructionSeesTheDraw : Obligations.OnlyRandomInstructionSeesTheDraw := by
  intro i s t n hi h
  rw [exec_setDraws s n hi, h, mapNext]

end Sys2Proof.Machine
end

section
/-! PROOFS. O25 to O30 (43_index_and_memory.md R140 to R146): the index register and memory. What a run of stored bytes leaves, what
a run of loaded registers reads, and the frame of FX33, FX55 and FX65 are said once; O30 composes what FX55, ANNN and FX65 leave. -/

namespace Sys2Proof.Machine

/-! ### `I` alone: ANNN, FX1E and FX29 -/

theorem quietBut_setI (s : State) (a : Word) : QuietBut [] s ((s.setI a).setResult .ok) :=
  ⟨regsKeptBut_refl [] s, fun _ => rfl, ⟨rfl, rfl⟩, ⟨rfl, rfl⟩, ⟨rfl, rfl⟩, ⟨rfl, rfl⟩, rfl, rfl⟩

/-- Settles O25: twelve bits zero-extended are the same number. -/
theorem loadIndexWithNNN : Obligations.LoadIndexWithNNN := fun s nnn =>
  ⟨decodeWord_encode (i := .ldI nnn) rfl, _, rfl, toNat_addrWord nnn, quietBut_setI s _, rfl, rfl⟩

theorem toNat_add16_regWord (a : Word) (s : State) (x : Reg) :
    (add16 a (regWord s x)).toNat = (a.toNat + (s.reg x).toNat) % 65536 := by
  have hword : (regWord s x).toNat = (s.reg x).toNat := BitVec.toNat_setWidth_of_le (by decide)
  rw [add16, BitVec.toNat_add, hword]

/-- The font starts at 0, and five times a byte does not wrap (R142). -/
theorem toNat_fontBase_add_mul5 (b : Byte) : (Config.fontBase + mul5 b).toNat = 5 * b.toNat := by
  have hb := b.isLt
  have hword : (b.setWidth 16).toNat = b.toNat := BitVec.toNat_setWidth_of_le (by decide)
  have hmul : (mul5 b).toNat = 5 * b.toNat % 65536 := by rw [mul5, BitVec.toNat_mul, hword]; rfl
  rw [Config.fontBase, BitVec.zero_add, hmul]; omega

/-- Settles O26: both instructions write `I` alone. -/
theorem indexArithmetic : Obligations.IndexArithmetic := by
  intro s x
  refine ⟨⟨_, rfl, ?sum, quietBut_setI s _, rfl, rfl⟩, ⟨_, rfl, ?digit, quietBut_setI s _, rfl, rfl⟩⟩
  case sum => exact toNat_add16_regWord s.i s x
  case digit => exact toNat_fontBase_add_mul5 (s.reg x)

/-! ### The accesses inside memory: FX33, FX55 and FX65 -/

section
variable {s : State} {x : Reg}

theorem accessFits_three (h : s.i.toNat + 2 ≤ 0xFFF) : accessFits s 3 = true :=
  (accessFits_iff s 3).mpr (by omega)

theorem accessFits_succ (h : s.i.toNat + x.val ≤ 0xFFF) : accessFits s (x.val + 1) = true :=
  (accessFits_iff s _).mpr (by omega)

theorem exec_ldB_of_accessFits (h : accessFits s 3 = true) :
    exec (.ldB x) s = complete (s.writeBytes (effAddr s 0) (bcd (s.reg x))) := if_pos h

theorem exec_ldRegs_of_accessFits (h : accessFits s (x.val + 1) = true) :
    exec (.ldRegs x) s =
      complete (bumpI (s.setV (loadedRegs s.v (fun k => s.byte (effAddr s k)) (x.val + 1))) (x.val + 1)) := if_pos h

/-- The post-modified `I` does not wrap when the access lies inside memory (R146). -/
theorem toNat_i_bumpI (h : s.i.toNat + x.val ≤ 0xFFF) : (bumpI s (x.val + 1)).i.toNat = s.i.toNat + x.val + 1 := by
  rw [bumpI_eq, State.setI_i, BitVec.toNat_add, BitVec.toNat_ofNat]; omega

/-- The frame of FX33, FX55 and FX65: memory, the registers, `I` and the result are all they write. -/
theorem frame_of_bytesMoved {t : State} (ht : t = (((s.setMem t.mem).setV t.v).setI t.i).setResult .ok) :
    StackKept s t ∧ TimersKept s t ∧ DisplayKept s t ∧ KeypadKept s t ∧ t.ir = s.ir ∧ t.draws = s.draws ∧
      CompletedInPlace s t := by
  generalize t.mem = m, t.v = v, t.i = i at ht
  subst ht
  exact ⟨⟨rfl, rfl⟩, ⟨rfl, rfl⟩, ⟨rfl, rfl⟩, ⟨rfl, rfl⟩, rfl, rfl, rfl, rfl⟩
end

theorem memKeptOutside_writeBytes (s : State) (a : Nat) {n : Nat} {bs : List Byte} (hn : bs.length = n) :
    MemKeptOutside a n s (s.writeBytes a bs) :=
  fun b hb => byte_writeBytes_outside s a bs b (hn ▸ hb)

/-! ### FX33 -/

/-- A digit that fits its byte is the number read where FX33 stores it (R143). -/
theorem toNat_byte_writeBytes_bcd (s : State) (b : Byte) {k d : Nat} (hk : k < 3) (hd : d < 256)
    (hkd : (bcd b)[k] = BitVec.ofNat 8 d) :
    ((s.writeBytes (effAddr s 0) (bcd b)).byte (effAddr s k)).toNat = d := by
  have hbyte : (s.writeBytes (effAddr s 0) (bcd b)).byte (effAddr s k) = BitVec.ofNat 8 d :=
    (byte_writeBytes_inside s _ (bcd b) k hk).trans hkd
  rw [hbyte]
  exact Nat.mod_eq_of_lt hd

/-- Settles O27: the three bytes stored are the digits, and each digit fits its byte. -/
theorem decimalDigitsAreStored : Obligations.DecimalDigitsAreStored := by
  intro s x h
  have hx := (s.reg x).isLt
  refine ⟨_, exec_ldB_of_accessFits (accessFits_three h), ?hundreds, ?tens, ?units,
    memKeptOutside_writeBytes s _ rfl, rfl, regsKeptBut_refl [] s, frame_of_bytesMoved rfl⟩
  case hundreds => exact toNat_byte_writeBytes_bcd s (s.reg x) (k := 0) (by decide) (by omega) rfl
  case tens => exact toNat_byte_writeBytes_bcd s (s.reg x) (k := 1) (by decide) (by omega) rfl
  case units => exact toNat_byte_writeBytes_bcd s (s.reg x) (k := 2) (by decide) (by omega) rfl

/-! ### FX55 and FX65 -/

/-- Settles O28: the bytes stored are the registers, X + 1 of them. -/
theorem registersAreStored : Obligations.RegistersAreStored := by
  intro s x h
  have hlen : (regBytes s (x.val + 1)).length = x.val + 1 := by
    have hx := x.isLt
    rw [length_regBytes]; omega
  exact ⟨_, exec_stRegs_of_accessFits (accessFits_succ h), fun r hr => byte_writeBytes_regBytes s hr,
    memKeptOutside_writeBytes s _ hlen, toNat_i_bumpI h, regsKeptBut_refl [] s, frame_of_bytesMoved rfl⟩

/-- Vr after V0 to VX are loaded with `f 0`, `f 1`, …. -/
theorem reg_setV_loadedRegs (s : State) (f : Nat → Byte) (x r : Reg) :
    (s.setV (loadedRegs s.v f (x.val + 1))).reg r = if r.val ≤ x.val then f r.val else s.reg r := by
  simp only [State.reg, State.setV_v, Fin.getElem_fin, getElem_loadedRegs, Nat.lt_succ_iff]

/-- Settles O29: the loaded registers are read back one by one, the others kept. -/
theorem registersAreLoaded : Obligations.RegistersAreLoaded := by
  intro s x h
  exact ⟨_, exec_ldRegs_of_accessFits (accessFits_succ h), reg_setV_loadedRegs s _ x, toNat_i_bumpI h, fun _ => rfl,
    frame_of_bytesMoved rfl⟩

/-- Settles O30: FX65 reads Vr at the address FX55 stored it at, and nothing in between writes that byte. -/
theorem storeThenLoadRestoresRegisters : Obligations.StoreThenLoadRestoresRegisters := by
  intro s t t' x nnn h hnnn hstore hkept
  obtain ⟨-, hstored⟩ := exec_stRegs_next hstore h
  obtain ⟨-, u, hindex, hui, ⟨-, humem, -⟩, -⟩ := loadIndexWithNNN t' nnn
  have hi : u.i.toNat = s.i.toNat := hui.trans hnnn
  obtain ⟨w, hload, hloaded, -⟩ := registersAreLoaded u x (by rwa [hi])
  refine ⟨u, w, hindex, hload, fun r hr => ?_⟩
  have haddr : effAddr u r.val = effAddr s r.val := by rw [effAddr, hi, effAddr]
  calc w.reg r
      = u.byte (effAddr u r.val) := by rw [hloaded, if_pos hr]
    _ = t'.byte (effAddr s r.val) := by rw [haddr, humem]
    _ = t.byte (effAddr s r.val) := hkept _
    _ = s.reg r := hstored r hr

end Sys2Proof.Machine
end

section
/-! PROOFS. O34 to O36 (44_display.md R155 to R158): the cleared screen and the drawn sprite. What the blitter leaves in each cell is
carried to the sprite of DXYN's own rule; O36 composes two draws of O35. -/

namespace Sys2Proof.Machine

/-- The frame of 00E0 and DXYN: the registers listed, the display, DC and the result are all they write. -/
theorem frame_of_displayWritten {s t : State} {xs : List Reg}
    (ht : t = (((s.setV t.v).setDisp t.disp).setDc true).setResult .ok) (hr : RegsKeptBut xs s t) :
    t.dc = true ∧ t.i = s.i ∧ RegsKeptBut xs s t ∧ MemKept s t ∧ StackKept s t ∧ TimersKept s t ∧ KeypadKept s t ∧
      t.ir = s.ir ∧ t.draws = s.draws ∧ CompletedInPlace s t := by
  generalize t.v = v, t.disp = d at ht
  subst ht
  exact ⟨rfl, rfl, hr, fun _ => rfl, ⟨rfl, rfl⟩, ⟨rfl, rfl⟩, ⟨rfl, rfl⟩, rfl, rfl, rfl, rfl⟩

/-! ### 00E0 -/

/-- Settles O34: the word is the encoding, and the display it leaves is the clear one. -/
theorem clearScreenClearsEveryCell : Obligations.ClearScreenClearsEveryCell :=
  ⟨decodeWord_encode (i := .cls) rfl, fun s =>
    ⟨_, rfl, fun cx cy _ _ => displayCell_clear cx cy, frame_of_displayWritten rfl (regsKeptBut_refl [] s)⟩⟩

/-! ### DXYN -/

section
variable (s : State) (x y : Reg) (n : Nat)

/-- The display and the collision DXYN's blit leaves (R157). -/
def drawSprite : Display × Bool :=
  blit s.disp (drawX x s) (drawY y s) (s.readBytes (effAddr s 0) (drawRows y n s))

/-- The rows drawn end at the bottom edge. -/
theorem drawY_add_length_le : drawY y s + (s.readBytes (effAddr s 0) (drawRows y n s)).length ≤ 32 := by
  have hy : drawY y s < 32 := Nat.mod_lt _ (by decide)
  rw [length_readBytes, drawRows, Config.displayH]; omega

theorem displayCell_drawSprite {cx : Nat} (hcx : cx < 64) (cy : Nat) :
    displayCell (drawSprite s x y n).1 cx cy = (displayCell s.disp cx cy ^^ spriteOn s x y n cx cy) := by
  rw [drawSprite, displayCell_blit _ _ _ _ (drawY_add_length_le s y n) _ _ hcx, spriteCovers_eq_spriteOn]

theorem drawSprite_collision :
    (drawSprite s x y n).2 = true ↔
      ∃ cx cy, cx < 64 ∧ cy < 32 ∧ spriteOn s x y n cx cy = true ∧ displayCell s.disp cx cy = true := by
  simp only [drawSprite, blit_collision _ _ _ _ (drawY_add_length_le s y n), spriteCovers_eq_spriteOn]

/-- The check DXYN makes is that its last drawn row lies inside memory; with no row there is none to check (20_memory.md R45). -/
theorem accessFits_drawRows_iff :
    accessFits s (drawRows y n s) = true ↔ n = 0 ∨ s.i.toNat + min n (32 - (s.reg y).toNat % 32) - 1 ≤ 0xFFF := by
  rw [accessFits_iff, drawRows, drawY, Config.displayH]; omega
end

section
variable {s t : State} {x y : Reg} {n : Nat}

theorem exec_drw_of_accessFits (h : accessFits s (drawRows y n s) = true) :
    exec (.drw x y n) s =
      complete (((s.setReg vf (flagByte (drawSprite s x y n).2)).setDisp (drawSprite s x y n).1).setDc true) := if_pos h

/-- A draw that ends Ok passed its check: failing it is the error MemoryOutOfRange. -/
theorem accessFits_of_drw_ok (h : exec (.drw x y n) s = .next t) (hok : t.result = .ok) :
    accessFits s (drawRows y n s) = true := by
  by_contra hf
  rw [exec_drw_of_not_accessFits hf] at h
  cases h
  cases hok

/-- The sprite drawn depends on VX, VY, `I` and memory alone. -/
theorem spriteOn_congr (hx : t.reg x = s.reg x) (hy : t.reg y = s.reg y) (hi : t.i = s.i) (hm : MemKept s t)
    (cx cy : Nat) : spriteOn t x y n cx cy = spriteOn s x y n cx cy := by
  simp only [spriteOn, effAddr, hx, hy, hi, hm _]
end

/-- Settles O35: VF is the blit's collision as a byte. -/
theorem drawFlipsCellsAndReportsCollision : Obligations.DrawFlipsCellsAndReportsCollision := by
  intro s x y n h
  refine ⟨_, exec_drw_of_accessFits ((accessFits_drawRows_iff s y n).mpr h),
    fun cx cy hcx _ => displayCell_drawSprite s x y n hcx cy, fun hhit => ?hit, fun hmiss => ?miss,
    frame_of_displayWritten rfl (regsKeptBut_setReg s vf _)⟩
  all_goals refine (State.reg_setReg_same s vf _).trans ?_
  case hit => rw [(drawSprite_collision s x y n).mpr hhit]; rfl
  case miss =>
    have hnone : (drawSprite s x y n).2 = false := by
      rw [Bool.eq_false_iff, Ne, drawSprite_collision]
      rintro ⟨cx, cy, hcx, hcy, hon, hone⟩
      exact Bool.false_ne_true ((hmiss cx cy hcx hcy hon).symm.trans hone)
    rw [hnone]; rfl

/-! ### Two draws of one sprite -/

/-- A display is its cells. -/
theorem display_ext {d d' : Display} (h : ∀ cx cy, cx < 64 → cy < 32 → displayCell d cx cy = displayCell d' cx cy) :
    d = d' := by
  refine Vector.ext fun cy hcy => BitVec.eq_of_getMsbD_eq fun cx hcx => ?_
  simpa [displayCell, displayRow, hcy] using h cx cy hcx hcy

/-- Settles O36: both draws flip the cells under the same sprite, and a cell the first turned on lies under it. -/
theorem drawingTwiceRestoresTheDisplay : Obligations.DrawingTwiceRestoresTheDisplay := by
  intro s t u x y n hst hok hx hy htu
  have hfit := (accessFits_drawRows_iff s y n).mp (accessFits_of_drw_ok hst hok)
  obtain ⟨t', hst', hflip, -, -, -, hi, -, hm, -⟩ := drawFlipsCellsAndReportsCollision s x y n hfit
  obtain rfl : t = t' := by simpa [hst] using hst'
  obtain ⟨u', htu', hflip', hhit, -⟩ := drawFlipsCellsAndReportsCollision t x y n (by rwa [hi, hy])
  obtain rfl : u = u' := by simpa [htu] using htu'
  have hsame := spriteOn_congr (n := n) hx hy hi hm
  refine ⟨display_ext fun cx cy hcx hcy => ?_, ?_⟩
  · rw [hflip' cx cy hcx hcy, hflip cx cy hcx hcy, hsame, Bool.xor_assoc, Bool.xor_self, Bool.xor_false]
  · rintro ⟨cx, cy, hcx, hcy, hoff, hon⟩
    have hunder : spriteOn s x y n cx cy = true := by simpa [hoff, hon] using (hflip cx cy hcx hcy).symm
    exact hhit ⟨cx, cy, hcx, hcy, (hsame cx cy).trans hunder, hon⟩

end Sys2Proof.Machine
end

section
/-! PROOFS. O37 to O39 and O42 (45_keypad.md R165 to R170): the keypad. What one execution of FX0A can do is said once, the six
rows of R169 (a) in three kinds; each state it leaves, and then three executions in turn, are read off it. -/

namespace Sys2Proof.Machine

/-! ### One execution of FX0A -/

/-- The latch after FX0A, by the table of R169 (a), from the latch before and whether some key is pressed. -/
def latchAfter : WaitLatch → Bool → WaitLatch
  | .idle, pressed => if pressed then .armed else .idle
  | .armed, pressed => if pressed then .keySeen else .armed
  | .keySeen, pressed => if pressed then .keySeen else .idle

/-- FX0A captures VX: armed, and a key is pressed. -/
def Captures (s : State) : Prop := s.wait = .armed ∧ s.anyKey = true

/-- FX0A completes: the key was seen, and every key is up again. -/
def Released (s : State) : Prop := s.wait = .keySeen ∧ s.anyKey = false

theorem Captures.not_released {s : State} : Captures s → ¬ Released s := by
  rintro ⟨harmed, -⟩ ⟨hseen, -⟩
  rw [harmed] at hseen
  cases hseen

/-- Key `k` is the lowest pressed. -/
def LowestPressed (s : State) (k : Fin 16) : Prop := s.key k = true ∧ ∀ j : Fin 16, j.val < k.val → s.key j = false

theorem LowestPressed.unique {s : State} {k k' : Fin 16} (h : LowestPressed s k) (h' : LowestPressed s k') : k = k' := by
  obtain ⟨hk, hbelow⟩ := h
  obtain ⟨hk', hbelow'⟩ := h'
  rcases Nat.lt_trichotomy k.val k'.val with hlt | heq | hgt
  · exact absurd hk (Bool.eq_false_iff.mp (hbelow' k hlt))
  · exact Fin.ext heq
  · exact absurd hk' (Bool.eq_false_iff.mp (hbelow k' hgt))

/-- The states FX0A can leave: it waits on, captures the lowest pressed key and waits on, or completes. -/
inductive KeyWait (x : Reg) (s : State) : State → Prop where
  | waits (hc : ¬ Captures s) (hr : ¬ Released s) :
      KeyWait x s (((s.setWait (latchAfter s.wait s.anyKey)).setPc (s.pc - 2#16)).setResult .retry)
  | captures (hc : Captures s) (k : Fin 16) (hk : LowestPressed s k) :
      KeyWait x s ((((s.setReg x (BitVec.ofNat 8 k.val)).setWait .keySeen).setPc (s.pc - 2#16)).setResult .retry)
  | completes (hr : Released s) : KeyWait x s ((s.setWait .idle).setResult .ok)

theorem setWait_of_eq {s : State} {w : WaitLatch} (h : s.wait = w) : s.setWait w = s := by
  subst h; rfl

/-- A row of R169 (a) that neither captures nor completes. -/
theorem keyWait_of_retry {x : Reg} {s u : State} (hu : u = s.setWait (latchAfter s.wait s.anyKey)) (hc : ¬ Captures s)
    (hr : ¬ Released s) : ∃ t, retry u = .next t ∧ KeyWait x s t := by
  subst hu
  exact ⟨_, rfl, .waits hc hr⟩

/-- FX0A always answers a next state. -/
theorem exec_ldVxK (x : Reg) (s : State) : ∃ t, exec (.ldVxK x) s = .next t ∧ KeyWait x s t := by
  simp only [exec, execLdVxK]
  split
  · next hw =>
    refine keyWait_of_retry ?_ (by simp [Captures, hw]) (by simp [Released, hw])
    cases s.anyKey with
    | false => rw [hw]; exact (setWait_of_eq hw).symm
    | true => rw [hw]; rfl
  · next hw =>
    split
    · next k hf =>
      obtain ⟨hk, hpressed, hbelow⟩ := firstKey_some hf
      have hany : s.anyKey = true := (anyKey_iff s).mpr ⟨_, hpressed⟩
      exact ⟨_, rfl, .captures ⟨hw, hany⟩ ⟨k, hk⟩ ⟨hpressed, hbelow⟩⟩
    · next hf =>
      have hnone := firstKey_none.mp hf
      refine keyWait_of_retry ?_ (by simp [Captures, hnone]) (by simp [Released, hw])
      rw [hnone, hw]; exact (setWait_of_eq hw).symm
  · next hw =>
    split
    · next hany =>
      refine keyWait_of_retry ?_ (by simp [Captures, hw]) (by simp [Released, hany])
      rw [hany, hw]; exact (setWait_of_eq hw).symm
    · next hnone => exact ⟨_, rfl, .completes ⟨hw, Bool.eq_false_iff.mpr hnone⟩⟩

theorem keyWait_of_next {x : Reg} {s t : State} (h : exec (.ldVxK x) s = .next t) : KeyWait x s t := by
  obtain ⟨t', ht', hrow⟩ := exec_ldVxK x s
  obtain rfl := Host.Outcome.next.inj (h.symm.trans ht')
  exact hrow

namespace KeyWait

variable {x : Reg} {s t : State}

theorem wait_eq (h : KeyWait x s t) : t.wait = latchAfter s.wait s.anyKey := by
  cases h with
  | waits hc hr => rfl
  | captures hc k hk => obtain ⟨hw, hany⟩ := hc; rw [hw, hany]; rfl
  | completes hr => obtain ⟨hw, hnone⟩ := hr; rw [hw, hnone]; rfl

theorem wait_of_eq (h : KeyWait x s t) {w : WaitLatch} (hw : s.wait = w) : t.wait = latchAfter w s.anyKey :=
  hw ▸ h.wait_eq

theorem of_released (h : KeyWait x s t) (hr : Released s) : t.pc = s.pc ∧ t.result = .ok := by
  cases h with
  | waits hc hnr => exact absurd hr hnr
  | captures hc k hk => exact absurd hr (hc.not_released)
  | completes _ => exact ⟨rfl, rfl⟩

theorem of_not_released (h : KeyWait x s t) (hr : ¬ Released s) : t.pc = s.pc - 2#16 ∧ t.result = .retry := by
  cases h with
  | waits _ _ => exact ⟨rfl, rfl⟩
  | captures _ k _ => exact ⟨rfl, rfl⟩
  | completes hr' => exact absurd hr' hr

theorem result_ok_iff (h : KeyWait x s t) : t.result = .ok ↔ Released s := by
  refine ⟨fun hok => ?_, fun hr => (h.of_released hr).2⟩
  by_contra hr
  rw [(h.of_not_released hr).2] at hok
  cases hok

theorem toNat_reg (h : KeyWait x s t) (hc : Captures s) {k : Fin 16} (hk : LowestPressed s k) :
    (t.reg x).toNat = k.val := by
  cases h with
  | waits hnc _ => exact absurd hc hnc
  | captures _ k' hk' =>
    obtain rfl := hk.unique hk'
    have hk16 := k.isLt
    rw [State.reg_setResult, State.reg_setPc, State.reg_setWait, State.reg_setReg_same, BitVec.toNat_ofNat]
    omega
  | completes hr => exact absurd hr (hc.not_released)

theorem reg_of_not_captures (h : KeyWait x s t) (hc : ¬ Captures s) : t.reg x = s.reg x := by
  cases h with
  | waits _ _ => rfl
  | captures hc' k _ => exact absurd hc' hc
  | completes _ => rfl

theorem frame (h : KeyWait x s t) :
    t.keys = s.keys ∧ t.i = s.i ∧ RegsKeptBut [x] s t ∧ MemKept s t ∧ StackKept s t ∧ TimersKept s t ∧
      DisplayKept s t ∧ t.ir = s.ir ∧ t.draws = s.draws := by
  have hregs : RegsKeptBut [x] s t := by
    cases h with
    | waits _ _ => exact regsKeptBut_refl [x] s
    | captures _ k _ => exact regsKeptBut_setReg s x _
    | completes _ => exact regsKeptBut_refl [x] s
  cases h <;> exact ⟨rfl, rfl, hregs, fun _ => rfl, ⟨rfl, rfl⟩, ⟨rfl, rfl⟩, ⟨rfl, rfl⟩, rfl, rfl⟩

end KeyWait

/-- Settles O38: each clause is one fact about what FX0A leaves. -/
theorem keyWaitMakesOneTransition : Obligations.KeyWaitMakesOneTransition := by
  intro s x
  obtain ⟨t, ht, h⟩ := exec_ldVxK x s
  refine ⟨t, ht, h.wait_of_eq, h.wait_of_eq, h.wait_of_eq, h.of_released, h.of_not_released,
    fun hw k hk hbelow => ?_, h.reg_of_not_captures, h.frame⟩
  have hany : s.anyKey = true := (anyKey_iff s).mpr ⟨k, hk⟩
  exact h.toNat_reg ⟨hw, hany⟩ ⟨hk, hbelow⟩

/-! ### Three executions of FX0A -/

theorem latchAfter_idle_ne_keySeen (a : Bool) : latchAfter .idle a ≠ .keySeen := by
  cases a <;> decide

/-- From idle two executions that see a key, and no others, reach key_seen. -/
theorem latchAfter_latchAfter_idle (a b : Bool) :
    latchAfter (latchAfter .idle a) b = .keySeen ↔ a = true ∧ b = true := by
  cases a <;> cases b <;> decide

/-- Settles O39: the third completes from key_seen with every key up, and the latch reaches key_seen through armed alone. -/
theorem keyWaitTakesThreeExecutions : Obligations.KeyWaitTakesThreeExecutions := by
  intro s1 t1 s2 t2 s3 t3 x hidle h1 hw12 h2 hw23 h3
  have hwait2 : s2.wait = latchAfter .idle s1.anyKey := hw12.trans ((keyWait_of_next h1).wait_of_eq hidle)
  have hwait3 : s3.wait = latchAfter (latchAfter .idle s1.anyKey) s2.anyKey :=
    hw23.trans ((keyWait_of_next h2).wait_of_eq hwait2)
  have hnot1 : ¬ Released s1 := fun ⟨hw, _⟩ => by simp [hidle] at hw
  have hnot2 : ¬ Released s2 := fun ⟨hw, _⟩ => latchAfter_idle_ne_keySeen _ (hwait2.symm.trans hw)
  refine ⟨((keyWait_of_next h1).of_not_released hnot1).2, ((keyWait_of_next h2).of_not_released hnot2).2, ?_⟩
  rw [(keyWait_of_next h3).result_ok_iff, Released, hwait3, latchAfter_latchAfter_idle, and_assoc]

/-! ### The skips on a key: EX9E and EXA1 -/

/-- Settles O37: a key index names its key, and both instructions are skips on it; above 15 no key is named. -/
theorem keySkipsTestTheNamedKey : Obligations.KeySkipsTestTheNamedKey := by
  intro s x
  refine ⟨fun k hk => ?named, fun h => ?unnamed⟩
  case named =>
    have hkey : keyOfReg x s = some (s.key k) := keyOfReg_some.mpr ⟨hk ▸ k.isLt, congrArg s.key (Fin.ext hk)⟩
    have hskp : exec (.skp x) s = complete (s.skipIf (s.key k)) := by rw [exec, execSkp, hkey]
    have hsknp : exec (.sknp x) s = complete (s.skipIf (!s.key k)) := by rw [exec, execSknp, hkey]
    exact ⟨completes_of_skipIf hskp rfl, completes_of_skipIf hsknp (by cases s.key k <;> rfl)⟩
  case unnamed =>
    have hnone := keyOfReg_none.mpr h
    rw [exec, execSkp, exec, execSknp, hnone]
    exact ⟨rfl, rfl⟩

/-! ### Key events -/

theorem applyEvent_keyPress (k : Byte) (s : State) :
    applyEvent (.keyPress k) s = ((setKey k true s).1, .result (setKey k true s).2) := rfl

theorem applyEvent_keyRelease (k : Byte) (s : State) :
    applyEvent (.keyRelease k) s = ((setKey k false s).1, .result (setKey k false s).2) := rfl

theorem key_setKeys_setIfInBounds (s : State) (n : Nat) (b : Bool) (j : Fin 16) :
    (s.setKeys (s.keys.setIfInBounds n b)).key j = if j.val = n then b else s.key j := by
  simp only [State.key, State.setKeys_keys, Fin.getElem_fin, Vector.getElem_setIfInBounds, eq_comm]

theorem setKey_of_lt {k : Byte} (h : k.toNat < 16) (pressed : Bool) (s : State) :
    setKey k pressed s = (s.setKeys (s.keys.setIfInBounds k.toNat pressed), .ok) := if_pos h

theorem setKey_of_gt {k : Byte} (h : 15 < k.toNat) (pressed : Bool) (s : State) :
    setKey k pressed s = (s, .error .invalidKeyIndex) := if_neg (by omega)

/-- Settles O42: both events write the same cell of the keys. -/
theorem keyEventsSetAndClearOneKey : Obligations.KeyEventsSetAndClearOneKey := by
  intro s k
  rw [applyEvent_keyPress, applyEvent_keyRelease]
  refine ⟨fun h => ?inside, fun h => ?above⟩
  case inside =>
    rw [setKey_of_lt h, setKey_of_lt h]
    exact ⟨_, _, rfl, rfl, key_setKeys_setIfInBounds s _ true, key_setKeys_setIfInBounds s _ false, rfl, rfl⟩
  case above =>
    rw [setKey_of_gt h, setKey_of_gt h]
    exact ⟨rfl, rfl⟩

end Sys2Proof.Machine
end

section
/-! PROOFS. O40 and O41 (46_timers.md R180 to R184): the timers. What n ticks leave is said once in closed form, each timer ticked n
times on its own; the counts, the sound and the frame are read off it. -/

namespace Sys2Proof.Machine

/-- Sound is on while ST is not 0 (R184). -/
theorem soundActive_eq_decide (s : State) : soundActive s = decide (s.st ≠ 0#8) := by
  rw [Bool.eq_iff_iff, soundActive, bne_iff_ne, decide_eq_true_iff]

/-! ### The timer instructions: FX07, FX15 and FX18 -/

/-- The frame of FX15 and FX18: the timers and the result are all they write. -/
theorem frame_of_timersWritten {s t : State} (ht : t = ((s.setDt t.dt).setSt t.st).setResult .ok) :
    t.i = s.i ∧ RegsKeptBut [] s t ∧ MemKept s t ∧ StackKept s t ∧ DisplayKept s t ∧ KeypadKept s t ∧ t.ir = s.ir ∧
      t.draws = s.draws ∧ CompletedInPlace s t := by
  generalize t.dt = d, t.st = b at ht
  subst ht
  exact ⟨rfl, regsKeptBut_refl [] s, fun _ => rfl, ⟨rfl, rfl⟩, ⟨rfl, rfl⟩, ⟨rfl, rfl⟩, rfl, rfl, rfl, rfl⟩

/-- Settles O40: the three words are encodings; FX07 writes VX alone, FX15 and FX18 one timer each. -/
theorem timerInstructionsMoveBytes : Obligations.TimerInstructionsMoveBytes := by
  intro s x
  refine ⟨⟨decodeWord_encode (i := .ldVxDt x) rfl, decodeWord_encode (i := .ldDtVx x) rfl,
      decodeWord_encode (i := .ldStVx x) rfl⟩,
    ⟨_, rfl, ?readDt, frame_of_setReg s x _⟩, ⟨_, rfl, rfl, rfl, frame_of_timersWritten rfl⟩,
    ⟨_, rfl, rfl, ?sound, rfl, frame_of_timersWritten rfl⟩⟩
  case readDt => exact State.reg_setReg_same s x s.dt
  case sound => exact soundActive_eq_decide _

/-! ### Ticks -/

/-- A tick takes one from a timer, and 0 stays 0 (R183). -/
theorem toNat_timerTick (b : Byte) : (timerTick b).toNat = b.toNat - 1 := by
  rw [timerTick]
  split
  case isTrue h => rw [h]; rfl
  case isFalse h => bv_omega

theorem toNat_iterate_timerTick (n : Nat) (b : Byte) : (timerTick^[n] b).toNat = b.toNat - n := by
  induction n with
  | zero => rfl
  | succ n ih => rw [Function.iterate_succ_apply', toNat_timerTick, ih, Nat.sub_sub]

/-- n ticks in a row: each timer ticks n times on its own, and nothing else is written. -/
theorem runEvents_ticks (n : Nat) (s : State) :
    runEvents (List.replicate n .tick) s = (s.setDt (timerTick^[n] s.dt)).setSt (timerTick^[n] s.st) := by
  induction n generalizing s with
  | zero => rfl
  | succ n ih => rw [List.replicate_succ, runEvents_cons, ih]; rfl

/-- Settles O41: the counts and the frame are the closed form's, and ST is not 0 until it has been ticked as often as it counted. -/
theorem ticksCountBothTimersDown : Obligations.TicksCountBothTimersDown := by
  intro n s
  rw [runEvents_ticks]
  refine ⟨toNat_iterate_timerTick n s.dt, toNat_iterate_timerTick n s.st, ?sound, rfl⟩
  case sound =>
    have hst := toNat_iterate_timerTick n s.st
    rw [soundActive_eq_decide, State.setSt_st, decide_eq_decide, ne_eq, ← BitVec.toNat_inj, hst]
    exact Nat.sub_ne_zero_iff_lt

end Sys2Proof.Machine
end

section
/-! PROOFS. O8 to O10 (40_fetch_decode_execute.md R83 to R87; 60_exceptions.md R200 to R206): errors and the stop. The step is
computed once on each side of the fetch's bound and of the decoder; an error of the execute phase is one of its effects. -/

namespace Sys2Proof.Machine

/-! ### The execute phase -/

/-- An instruction always answers a next state: its meaning ends in no fault and no refusal. -/
theorem exec_total (i : Instr) (s : State) : ∃ t, exec i s = .next t := by
  obtain ⟨u, h⟩ | ⟨u, h⟩ | ⟨k, h⟩ := exec_cases i s
  · exact ⟨_, h.trans (complete_next.mpr rfl)⟩
  · exact ⟨_, h.trans (retry_next.mpr rfl)⟩
  · exact ⟨_, h.trans (raise_next.mpr rfl)⟩

/-- Settles O10: the one effect whose result is an error is the error raised on the state as it was. -/
theorem errorsComeBeforeAnyWrite : Obligations.ErrorsComeBeforeAnyWrite := by
  intro i s t k h hk
  cases exec_effect h with
  | raises he =>
    cases hk
    exact ⟨rfl, he⟩
  | _ => exact nomatch hk

/-! ### The step -/

theorem step_of_gt {s : State} (h : 0xFFE < s.pc.toNat) : step s = .fault .fetchOutOfRange := by
  rw [step, fetch_none.mpr h]

/-- Settles O8: the fetch succeeds, and IR holds the opcode that decodes to nothing. -/
theorem unrecognizedOpcodeOnlyAdvances : Obligations.UnrecognizedOpcodeOnlyAdvances := by
  intro s e h hd
  rw [step, fetch_of_le h]
  simp only [State.setPc_ir, State.setIr_ir, hd, raise]

/-- A step that can fetch answers a next state, whether or not the opcode decodes. -/
theorem step_of_le {s : State} (h : s.pc.toNat ≤ 0xFFE) : ∃ t, step s = .next t := by
  cases hd : decodeWord (opcodeAt s s.pc.toNat) with
  | ok i => exact stepRunsDecodedInstruction s i h hd ▸ exec_total i _
  | error e => exact ⟨_, unrecognizedOpcodeOnlyAdvances s e h hd⟩

theorem applyEvent_step (s : State) : applyEvent .step s = ((stepEvent s).1, .result (stepEvent s).2) := rfl

theorem stepEvent_of_gt {s : State} (h : 0xFFE < s.pc.toNat) : stepEvent s = (s, .error .fetchOutOfRange) := by
  rw [stepEvent, step_of_gt h]

/-- Settles O9: the step is known on each side of the bound, and the step event follows it. -/
theorem stepStopsExactlyBeyondMemory : Obligations.StepStopsExactlyBeyondMemory := by
  intro s
  rw [applyEvent_step]
  refine ⟨fun h => ?beyond, fun h => ?inside⟩
  case beyond =>
    rw [stepEvent_of_gt h]
    exact ⟨step_of_gt h, rfl⟩
  case inside =>
    obtain ⟨t, ht⟩ := step_of_le h
    rw [stepEvent_of_next ht]
    exact ⟨t, ht, rfl⟩

end Sys2Proof.Machine
end

section
/-! PROOFS. O43 to O45 (47_host_operations.md R190, R192, R195; 70_reset_and_hazards.md R225): the host's operations, each branch
said once, and the reset event. -/

namespace Sys2Proof.Machine

/-! ### Loading an image -/

theorem applyEvent_load (image : List Byte) (s : State) :
    applyEvent (.load image) s = ((load image s).1, .result (load image s).2) := rfl

theorem load_of_le {image : List Byte} (h : image.length ≤ 3584) (s : State) :
    load image s = (s.writeBytes 0x200 image, .ok) := if_pos h

theorem load_of_gt {image : List Byte} (h : 3584 < image.length) (s : State) :
    load image s = (s, .error .loadTooLarge) := if_neg (Nat.not_le_of_lt h)

/-- Settles O43: an image that fits is one run of bytes stored from 0x200 on. -/
theorem loadCopiesWholeImageOrNothing : Obligations.LoadCopiesWholeImageOrNothing := by
  intro s image
  rw [applyEvent_load]
  refine ⟨fun h => ?fits, fun h => ?large⟩
  case fits =>
    rw [load_of_le h]
    exact ⟨_, rfl, byte_writeBytes_inside s 0x200 image, memKeptOutside_writeBytes s 0x200 rfl, rfl⟩
  case large => rw [load_of_gt h]

/-! ### Reading out -/

theorem debugReg_of_reg (r : Reg) (s : State) : debugReg r.val s = .ok (s.reg r) := dif_pos r.isLt

theorem debugReg_of_gt {k : Nat} (h : 15 < k) (s : State) : debugReg k s = .error .invalidRegisterIndex :=
  dif_neg (Nat.not_lt_of_le h)

theorem length_debugMem (s : State) : (debugMem s).length = 4096 := length_readBytes s 0 4096

theorem getElem_debugMem (s : State) (a : Nat) (h : a < (debugMem s).length) : (debugMem s)[a] = s.byte a :=
  (getElem_readBytes s 0 4096 a h).trans (congrArg s.byte (Nat.zero_add a))

/-- Settles O44: the register view by its index, the memory view byte by byte; the other views name a field. -/
theorem readOutsReportTheState : Obligations.ReadOutsReportTheState := by
  intro s r k
  refine ⟨rfl, ?regView, fun h => ?badIndex, rfl, rfl, rfl, rfl, debugMem s, rfl, length_debugMem s, getElem_debugMem s⟩
  case regView => rw [applyEvent, debugReg_of_reg]
  case badIndex => rw [applyEvent, debugReg_of_gt h]

/-! ### Reset -/

theorem applyEvent_reset (s : State) : (applyEvent .reset s).1 = (State.resetWith s.font).setDraws s.draws := rfl

@[simp] theorem reg_resetWith (f : Config.Font) (r : Reg) : (State.resetWith f).reg r = 0#8 :=
  Vector.getElem_replicate r.isLt

theorem stack_resetWith (f : Config.Font) (j : Fin 16) : (State.resetWith f).stack[j] = 0#16 :=
  Vector.getElem_replicate j.isLt

@[simp] theorem key_resetWith (f : Config.Font) (k : Fin 16) : (State.resetWith f).key k = false :=
  Vector.getElem_replicate k.isLt

/-- Settles O45: the arrays cell by cell, memory as the reset contents; every other field is written as stated. -/
theorem resetEventGivesTheResetState : Obligations.ResetEventGivesTheResetState := by
  intro s
  rw [applyEvent_reset]
  exact ⟨rfl, rfl, rfl, rfl, rfl, rfl, reg_resetWith s.font, stack_resetWith s.font, rfl, rfl, key_resetWith s.font,
    fun cx cy _ _ => displayCell_clear cx cy, resetByte_font s.font, resetByte_above s.font, rfl, rfl⟩

end Sys2Proof.Machine
end

section
/-! PROOFS. O33 (20_memory.md section 5): the canonical form of memory. Its cells are exactly the addresses that do not read as
the reset contents, so reading alike is having the same cells, and one strictly rising order lists them. -/

namespace Sys2Proof.Machine

variable {f : Config.Font} {m : Memory} {a : Nat} {v : Byte}

/-- On a list of strictly rising addresses, what a cell holds is what its address reads as. -/
theorem memRead_of_mem (hs : m.Pairwise fun p q => p.1 < q.1) (h : (a, v) ∈ m) : memRead f m a = v := by
  induction m with
  | nil => exact absurd h List.not_mem_nil
  | cons q m ih =>
    obtain ⟨b, w⟩ := q
    obtain ⟨hq, hm⟩ := List.pairwise_cons.mp hs
    rcases List.mem_cons.mp h with h | h
    · cases h
      exact if_pos rfl
    · have hab : a ≠ b := Nat.ne_of_gt (hq _ h)
      rw [memRead_cons, if_neg hab, ih hm h]

/-- An address that does not read as the reset contents is listed with what it reads as. -/
theorem mem_of_memRead_ne (h : memRead f m a ≠ resetByte f a) : (a, memRead f m a) ∈ m := by
  induction m with
  | nil => exact absurd rfl h
  | cons q m ih =>
    obtain ⟨b, w⟩ := q
    rw [memRead_cons] at h ⊢
    split at h
    case isTrue hab => rw [if_pos hab, hab]; exact List.mem_cons_self
    case isFalse hab => rw [if_neg hab]; exact List.mem_cons_of_mem _ (ih h)

/-- The cells of a canonical memory, by reading alone. -/
theorem mem_iff_memRead (hm : memWf f m) : (a, v) ∈ m ↔ memRead f m a = v ∧ v ≠ resetByte f a := by
  obtain ⟨hs, hcells⟩ := hm
  constructor
  · intro h
    exact ⟨memRead_of_mem hs h, (hcells _ h).2⟩
  · rintro ⟨rfl, hv⟩
    exact mem_of_memRead_ne hv

/-- Settles O33: reading alike gives the same cells, and both lists hold them in the strict order of their addresses. -/
theorem canonicalMemoriesReadingAlikeAreEqual : Obligations.CanonicalMemoriesReadingAlikeAreEqual := by
  intro f m m' hm hm' hread
  have hcells : ∀ p : Host.Cell, p ∈ m ↔ p ∈ m' := fun ⟨a, v⟩ => by
    rw [mem_iff_memRead hm, mem_iff_memRead hm', hread]
  have hirrefl : Std.Irrefl fun p q : Host.Cell => p.1 < q.1 := ⟨fun p => Nat.lt_irrefl p.1⟩
  have hantisymm : Std.Antisymm fun p q : Host.Cell => p.1 < q.1 := ⟨fun _ _ hpq hqp => absurd hqp (Nat.lt_asymm hpq)⟩
  exact hm.1.eq_of_mem_iff hm'.1 hcells

end Sys2Proof.Machine
end
